-- ==== Sys2Proof/Word.lean ====
section
/-! DEFINITION. The word and byte types (00_scope.md R10, 20_memory.md R43). -/

namespace Sys2Proof

/-- A `Word` is a 32-bit bit pattern: every register, RAM cell, the program counter and the instruction
register holds one (00_scope.md R10). `+`, `-` and `*` on it are modulo 2^32, and `u(v)` of the spec is
`v.toNat`. -/
abbrev Word := BitVec 32

/-- One byte of the binary image (70_reset_and_hazards.md R213). No instruction names one (20_memory.md R43). -/
abbrev Byte := BitVec 8

end Sys2Proof
end

