-- ==== Sys2Proof/Config.lean ====
section
/-! DEFINITION. The implementation parameters of 00_scope.md R7, at the values the spec fixes, and the relations
of R8. RAM_WORDS, which R7 leaves OPEN, is a field of the machine's state (log 1). -/

namespace Sys2Proof.Config

/-- `W`, the significant width of an instruction word (00_scope.md R7, D1). -/
abbrev significantWidth : Nat := 24

/-- `OPW`, the width of the opcode field (00_scope.md R7, D2). -/
abbrev opcodeWidth : Nat := 5

/-- `IDXW`, the width of the `reg_a` and `reg_b` index fields (00_scope.md R7, D2). -/
abbrev indexWidth : Nat := 5

/-- `OPERW`, the width of the shared `operand` / `reg_r` field (00_scope.md R7, D2). -/
abbrev operandWidth : Nat := 7

/-- `XLEN`, the width of a register, a RAM cell and the word container (00_scope.md R7, D4). -/
abbrev xlen : Nat := 32

/-- `NREGS`, the number of general registers (00_scope.md R7, D5). -/
abbrev nregs : Nat := 8

/-- `NOPC`, the number of defined opcodes (00_scope.md R3, R7). -/
abbrev nopc : Nat := 19

/-- `WORD_BYTES`, the bytes of one word in the binary image (00_scope.md R7, D30). -/
abbrev wordBytes : Nat := 4

/-- The values RAM_WORDS may take: `1 <= RAM_WORDS <= 2^32` (00_scope.md R8). -/
abbrev LegalRamWords (n : Nat) : Prop := 1 ≤ n ∧ n ≤ 2 ^ 32

/-- The RAM_WORDS of the model's own reset state, the value the test vectors use.
DESIGN CHOICE, unsafe: the spec leaves RAM_WORDS OPEN (00_scope.md R7, D6; log 1). -/
abbrev resetRamWords : Nat := 32

end Sys2Proof.Config
end

