-- ==== Sys2Proof/Syntax.lean ====
section
/-! DEFINITION. The instructions: one constructor of `Instr` per row of spec/opcode_table.json, the operand with
its mode tag, the operand shapes and the descriptor of an opcode (30_encoding.md R61 to R69). -/

namespace Sys2Proof

/-- An operand field: its index with the mode bit as a constructor (00_scope.md R14). Untagged (mode 0) is a
register reference; tagged (mode 1) holds a literal or an address the assembler resolved. What a tag means depends
on the opcode (30_encoding.md R65). -/
inductive Operand where
  | untagged (idx : Nat)
  | tagged (idx : Nat)
deriving DecidableEq, Repr

/-- The 19 instructions (00_scope.md R3), each with exactly the fields its handler reads (30_encoding.md R68).
Ignored fields are don't-care (R76) and are not kept (log 8). A source operand is `a` or `b`, `r` is `reg_r`, and
`offset` is `operand`. -/
inductive Instr where
  /-- opcode 0 (41_alu.md R120) -/
  | add (a b : Operand) (r : Nat)
  /-- opcode 1 (41_alu.md R121) -/
  | nand (a b : Operand) (r : Nat)
  /-- opcode 2 (42_load_store.md R150); `d` is `reg_a.idx`, whose mode bit is ignored -/
  | lw (d : Nat) (b : Operand) (offset : Nat)
  /-- opcode 3 (42_load_store.md R151) -/
  | sw (a b : Operand) (offset : Nat)
  /-- opcode 4 (43_control.md R160) -/
  | beq (a b : Operand) (offset : Nat)
  /-- opcode 5 (43_control.md R161) -/
  | jalr (a b : Operand)
  /-- opcode 6 (44_system.md R170) -/
  | halt
  /-- opcode 7 (44_system.md R171) -/
  | noop
  /-- opcode 8 (41_alu.md R122) -/
  | inc (a : Operand)
  /-- opcode 9 (41_alu.md R123) -/
  | idiv (a b : Operand) (r : Nat)
  /-- opcode 10 (41_alu.md R124) -/
  | imul (a b : Operand) (r : Nat)
  /-- opcode 11 (41_alu.md R125) -/
  | and (a b : Operand) (r : Nat)
  /-- opcode 12 (41_alu.md R126) -/
  | xor (a b : Operand) (r : Nat)
  /-- opcode 13 (41_alu.md R127) -/
  | shr (a b : Operand) (r : Nat)
  /-- opcode 14 (41_alu.md R128) -/
  | adc (a b : Operand) (r : Nat)
  /-- opcode 15 (41_alu.md R129) -/
  | sbb (a b : Operand) (r : Nat)
  /-- opcode 16 (41_alu.md R130); `a` is `reg_a.idx`, whose mode bit is ignored -/
  | cmp (a r : Nat)
  /-- opcode 17 (43_control.md R168) -/
  | jma
  /-- opcode 18 (43_control.md R169) -/
  | jmbe
deriving DecidableEq, Repr

/-- The operand shapes of the opcode descriptor (00_scope.md R13, 30_encoding.md R69). Only the assembler reads
one; the execution engine never does. -/
inductive OperandShape where
  | none
  | single
  | pair
  | pairDest
  | pairOffset
deriving DecidableEq, Repr

/-- The Opcode Descriptor: opcode id, operand shape, mnemonic (00_scope.md R13). -/
structure OpcodeDescriptor where
  id : Nat
  shape : OperandShape
  mnemonic : String
deriving DecidableEq, Repr

/-- The record the operand bit-decoder extracts from a word (30_encoding.md R63). `regR` and `operand` are two
views of the same seven bits (R64). -/
structure Fields where
  high : Nat
  opcode : Nat
  regA : Operand
  regB : Operand
  regR : Nat
  operand : Nat
deriving DecidableEq, Repr

/-- Why the engine does not run a fetched word (40_execution_engine.md R95). -/
inductive DecodeError where
  /-- `w[31:24]` is not zero (30_encoding.md R75) -/
  | nonCanonicalWord (w : Word)
  /-- the opcode field is 19 or more (30_encoding.md R74) -/
  | unknownOpcode (opcode : Nat)
deriving DecidableEq, Repr

/-- Why no instruction is read from the front of a byte sequence. -/
inductive BytesError where
  /-- fewer than the four bytes of one word are left (30_encoding.md R78) -/
  | incompleteWord
  /-- the word is refused -/
  | rejected (e : DecodeError)
deriving DecidableEq, Repr

/-- The eight error kinds of the encoders, the assembler and the image loader, none of which a step raises
(60_exceptions.md R194). -/
inductive ToolError where
  | encodingRangeError
  | unknownMnemonicError
  | unknownDirectiveError
  | duplicateLabelError
  | unresolvedLabelError
  | programTooLargeError
  | imageNotFoundError
  | invalidImageSizeError
deriving DecidableEq, Repr

end Sys2Proof
end

