-- ==== Sys2Proof/WellFormed.lean ====
section
/-! DEFINITION. Which instructions a word can hold: every field within its width (30_encoding.md R61, R72). A
register index of 8 or more is well-formed: it encodes, and it faults when it is used (10_state.md R22, R77). -/

namespace Sys2Proof

/-- The index an operand carries, whatever its tag. -/
def Operand.idx : Operand → Nat
  | .untagged i => i
  | .tagged i => i

/-- The index fits its field: `idx < 32` (30_encoding.md R72). -/
def Operand.wellFormed (o : Operand) : Bool := decide (o.idx < 2 ^ Config.indexWidth)

/-- A bare index fits the `reg_a` field (30_encoding.md R72). -/
def indexFits (i : Nat) : Bool := decide (i < 2 ^ Config.indexWidth)

/-- A `reg_r` or an offset fits the low field: below 128 (30_encoding.md R72). -/
def lowFits (n : Nat) : Bool := decide (n < 2 ^ Config.operandWidth)

/-- Every field of the instruction fits the encoding. -/
def Instr.wellFormed : Instr → Bool
  | .add a b r => a.wellFormed && b.wellFormed && lowFits r
  | .nand a b r => a.wellFormed && b.wellFormed && lowFits r
  | .lw d b offset => indexFits d && b.wellFormed && lowFits offset
  | .sw a b offset => a.wellFormed && b.wellFormed && lowFits offset
  | .beq a b offset => a.wellFormed && b.wellFormed && lowFits offset
  | .jalr a b => a.wellFormed && b.wellFormed
  | .halt => true
  | .noop => true
  | .inc a => a.wellFormed
  | .idiv a b r => a.wellFormed && b.wellFormed && lowFits r
  | .imul a b r => a.wellFormed && b.wellFormed && lowFits r
  | .and a b r => a.wellFormed && b.wellFormed && lowFits r
  | .xor a b r => a.wellFormed && b.wellFormed && lowFits r
  | .shr a b r => a.wellFormed && b.wellFormed && lowFits r
  | .adc a b r => a.wellFormed && b.wellFormed && lowFits r
  | .sbb a b r => a.wellFormed && b.wellFormed && lowFits r
  | .cmp a r => indexFits a && lowFits r
  | .jma => true
  | .jmbe => true

end Sys2Proof
end

