-- ==== Sys2Proof/Decode.lean ====
section
/-! DEFINITION. The opcode table, the operand bit-decoder, the engine's decode with its two checks, and the two
encoders (30_encoding.md R60 to R80; 40_execution_engine.md R95). -/

namespace Sys2Proof

/-- The opcode table: number, operand shape and mnemonic of each of the 19 opcodes (30_encoding.md R67). It is a
constant of the machine (10_state.md R33). -/
def opcodeTable : List OpcodeDescriptor :=
  [⟨0, .pairDest, "add"⟩, ⟨1, .pairDest, "nand"⟩, ⟨2, .pairOffset, "lw"⟩, ⟨3, .pairOffset, "sw"⟩,
   ⟨4, .pairOffset, "beq"⟩, ⟨5, .pair, "jalr"⟩, ⟨6, .none, "halt"⟩, ⟨7, .none, "noop"⟩, ⟨8, .single, "inc"⟩,
   ⟨9, .pairDest, "idiv"⟩, ⟨10, .pairDest, "imul"⟩, ⟨11, .pairDest, "and"⟩, ⟨12, .pairDest, "xor"⟩,
   ⟨13, .pairDest, "shr"⟩, ⟨14, .pairDest, "adc"⟩, ⟨15, .pairDest, "sbb"⟩, ⟨16, .pair, "cmp"⟩,
   ⟨17, .none, "jma"⟩, ⟨18, .none, "jmbe"⟩]

/-- `lookup_by_id`, which validates that an opcode is in range (30_encoding.md R74). -/
def lookupById (opcode : Nat) : Option OpcodeDescriptor := opcodeTable.find? (fun d => d.id == opcode)

/-- The opcode number of an instruction (30_encoding.md R67). -/
def Instr.opcode : Instr → Nat
  | .add _ _ _ => 0
  | .nand _ _ _ => 1
  | .lw _ _ _ => 2
  | .sw _ _ _ => 3
  | .beq _ _ _ => 4
  | .jalr _ _ => 5
  | .halt => 6
  | .noop => 7
  | .inc _ => 8
  | .idiv _ _ _ => 9
  | .imul _ _ _ => 10
  | .and _ _ _ => 11
  | .xor _ _ _ => 12
  | .shr _ _ _ => 13
  | .adc _ _ _ => 14
  | .sbb _ _ _ => 15
  | .cmp _ _ => 16
  | .jma => 17
  | .jmbe => 18

/-- The spec's slice `v[hi:lo]`: the unsigned number formed by bits `hi` down to `lo` (00_scope.md R9). -/
def slice (v : Word) (hi lo : Nat) : Nat := v.toNat / 2 ^ lo % 2 ^ (hi + 1 - lo)

/-- An operand field from its mode bit and its index (30_encoding.md R61). -/
def operandOf (mode idx : Nat) : Operand := if mode = 0 then .untagged idx else .tagged idx

/-- `Decode` of 30_encoding.md R63: total, it only extracts bits. -/
def decodeFields (w : Word) : Fields where
  high := slice w 31 24
  opcode := slice w 23 19
  regA := operandOf (slice w 18 18) (slice w 17 13)
  regB := operandOf (slice w 12 12) (slice w 11 7)
  regR := slice w 6 0
  operand := slice w 6 0

/-- The instruction a decoded record stands for, by its opcode (30_encoding.md R67, R68); an opcode of 19 or more
names none (R74). -/
def instrOfFields (d : Fields) : Except DecodeError Instr :=
  match d.opcode with
  | 0 => .ok (.add d.regA d.regB d.regR)
  | 1 => .ok (.nand d.regA d.regB d.regR)
  | 2 => .ok (.lw d.regA.idx d.regB d.operand)
  | 3 => .ok (.sw d.regA d.regB d.operand)
  | 4 => .ok (.beq d.regA d.regB d.operand)
  | 5 => .ok (.jalr d.regA d.regB)
  | 6 => .ok .halt
  | 7 => .ok .noop
  | 8 => .ok (.inc d.regA)
  | 9 => .ok (.idiv d.regA d.regB d.regR)
  | 10 => .ok (.imul d.regA d.regB d.regR)
  | 11 => .ok (.and d.regA d.regB d.regR)
  | 12 => .ok (.xor d.regA d.regB d.regR)
  | 13 => .ok (.shr d.regA d.regB d.regR)
  | 14 => .ok (.adc d.regA d.regB d.regR)
  | 15 => .ok (.sbb d.regA d.regB d.regR)
  | 16 => .ok (.cmp d.regA.idx d.regR)
  | 17 => .ok .jma
  | 18 => .ok .jmbe
  | opcode => .error (.unknownOpcode opcode)

/-- The engine's decode: the high byte is checked first, then the opcode (40_execution_engine.md R95). -/
def decode (w : Word) : Except DecodeError Instr :=
  if (decodeFields w).high ≠ 0 then .error (.nonCanonicalWord w) else instrOfFields (decodeFields w)

/-- The word four bytes stand for, the least significant byte first (20_memory.md R43, 70_reset_and_hazards.md
R213). -/
def wordOfBytes (b0 b1 b2 b3 : Byte) : Word :=
  BitVec.ofNat 32 (b0.toNat + 2 ^ 8 * b1.toNat + 2 ^ 16 * b2.toNat + 2 ^ 24 * b3.toNat)

/-- Byte `i` of a word, counted from the least significant one (70_reset_and_hazards.md R213). -/
def byteOfWord (w : Word) (i : Nat) : Byte := BitVec.ofNat 8 (w.toNat / 2 ^ (8 * i))

/-- The four bytes of a word in the image's order (70_reset_and_hazards.md R213). -/
def bytesOfWord (w : Word) : List Byte := [byteOfWord w 0, byteOfWord w 1, byteOfWord w 2, byteOfWord w 3]

/-- Decode the instruction at the front of a byte sequence in the image's order. An instruction is always exactly
one word (30_encoding.md R78); the rest of the bytes is given back. -/
def decodeBytes : List Byte → Except BytesError (Instr × List Byte)
  | b0 :: b1 :: b2 :: b3 :: rest =>
    match decode (wordOfBytes b0 b1 b2 b3) with
    | .ok i => .ok (i, rest)
    | .error e => .error (.rejected e)
  | _ => .error .incompleteWord

/-- The mode bit an operand encodes as (00_scope.md R14). -/
def Operand.mode : Operand → Nat
  | .untagged _ => 0
  | .tagged _ => 1

/-- The checks both encoders make before they pack: each field against its width, no argument negative
(30_encoding.md R72). The opcode is checked by width only, so 19 to 31 pass (D35). -/
def encoderAccepts (opcode aIdx bIdx low aMode bMode : Int) : Bool :=
  decide (0 ≤ opcode ∧ opcode < 2 ^ Config.opcodeWidth) && decide (0 ≤ aIdx ∧ aIdx < 2 ^ Config.indexWidth) &&
  decide (0 ≤ bIdx ∧ bIdx < 2 ^ Config.indexWidth) && decide (0 ≤ low ∧ low < 2 ^ Config.operandWidth) &&
  decide (0 ≤ aMode ∧ aMode < 2) && decide (0 ≤ bMode ∧ bMode < 2)

/-- The packed word of checked fields, at the bit positions of 30_encoding.md R61. The fields do not overlap, so
the sum is the spec's bitwise or (R70). -/
def packFields (opcode aIdx bIdx low aMode bMode : Nat) : Word :=
  BitVec.ofNat 32
    (opcode * 2 ^ 19 + aMode * 2 ^ 18 + aIdx * 2 ^ 13 + bMode * 2 ^ 12 + bIdx * 2 ^ 7 + low)

/-- `encode_triple` (30_encoding.md R70, R72). -/
def encodeTriple (opcode aIdx bIdx rIdx : Int) (aMode bMode : Int := 0) : Except ToolError Word :=
  if encoderAccepts opcode aIdx bIdx rIdx aMode bMode then
    .ok (packFields opcode.toNat aIdx.toNat bIdx.toNat rIdx.toNat aMode.toNat bMode.toNat)
  else .error .encodingRangeError

/-- `encode_offset`, which differs only in what its caller means by the low field (30_encoding.md R71, R72). -/
def encodeOffset (opcode aIdx bIdx offset : Int) (aMode bMode : Int := 0) : Except ToolError Word :=
  if encoderAccepts opcode aIdx bIdx offset aMode bMode then
    .ok (packFields opcode.toNat aIdx.toNat bIdx.toNat offset.toNat aMode.toNat bMode.toNat)
  else .error .encodingRangeError

/-- The word of an instruction, each field the handler reads at its place and every ignored field 0
(30_encoding.md R68 to R72, log 8). Unlike the assembler's `cmp A B`, which fills `reg_b`, this writes the field
`cmp` compares with, `reg_r`. -/
def encode : Instr → Except ToolError Word
  | .add a b r => encodeTriple 0 a.idx b.idx r a.mode b.mode
  | .nand a b r => encodeTriple 1 a.idx b.idx r a.mode b.mode
  | .lw d b offset => encodeOffset 2 d b.idx offset 0 b.mode
  | .sw a b offset => encodeOffset 3 a.idx b.idx offset a.mode b.mode
  | .beq a b offset => encodeOffset 4 a.idx b.idx offset a.mode b.mode
  | .jalr a b => encodeTriple 5 a.idx b.idx 0 a.mode b.mode
  | .halt => encodeTriple 6 0 0 0
  | .noop => encodeTriple 7 0 0 0
  | .inc a => encodeTriple 8 a.idx 0 0 a.mode
  | .idiv a b r => encodeTriple 9 a.idx b.idx r a.mode b.mode
  | .imul a b r => encodeTriple 10 a.idx b.idx r a.mode b.mode
  | .and a b r => encodeTriple 11 a.idx b.idx r a.mode b.mode
  | .xor a b r => encodeTriple 12 a.idx b.idx r a.mode b.mode
  | .shr a b r => encodeTriple 13 a.idx b.idx r a.mode b.mode
  | .adc a b r => encodeTriple 14 a.idx b.idx r a.mode b.mode
  | .sbb a b r => encodeTriple 15 a.idx b.idx r a.mode b.mode
  | .cmp a r => encodeTriple 16 a 0 r
  | .jma => encodeTriple 17 0 0 0
  | .jmbe => encodeTriple 18 0 0 0

/-- The word of an instruction given as `nbits` bits of a number, every bit above them 0. -/
def tableWord (nbits w : Nat) : Word := BitVec.ofNat 32 (w % 2 ^ nbits)

/-- The instruction the decoder reads from an instruction whose bits are `w`, laid out as the image stores it. -/
def decodeTableWord (nbits w : Nat) : Option Instr :=
  match decodeBytes (bytesOfWord (tableWord nbits w)) with
  | .ok (i, _) => some i
  | .error _ => none

end Sys2Proof
end

