-- ==== Sys2Proof/Machine/State.lean ====
section
/-! DEFINITION. The architectural state (10_state.md), the reasons a step could stop, and the state after reset
(10_state.md R34, 70_reset_and_hazards.md R210). -/

namespace Sys2Proof.Machine

/-- The flags record: carry, sign and zero (10_state.md R24). -/
structure Flags where
  C : Bool
  S : Bool
  Z : Bool
deriving DecidableEq, Repr

/-- The fault record of an aborted run: one of the seven causes of 60_exceptions.md R181 with the information that
cause records (10_state.md R28). -/
inductive Abort where
  /-- code 1, at fetch: the `pc` Word (60_exceptions.md R182) -/
  | programCounterOutOfRange (pc : Word)
  /-- code 2, at decode: the fetched word (60_exceptions.md R183) -/
  | nonCanonicalWord (ir : Word)
  /-- code 3, at decode: the opcode number (60_exceptions.md R184) -/
  | unknownOpcode (opcode : Nat)
  /-- code 4, at dispatch: the register index (60_exceptions.md R185) -/
  | registerIndexOutOfRange (index : Nat)
  /-- code 5, at dispatch: the address Word (60_exceptions.md R186) -/
  | memoryAddressOutOfRange (address : Word)
  /-- code 6, at dispatch: the `pc` Word (60_exceptions.md R187) -/
  | divideByZero (pc : Word)
  /-- code 7, at dispatch: the amount Word (60_exceptions.md R188) -/
  | shiftAmountOutOfRange (amount : Word)
deriving DecidableEq, Repr

/-- The run status (10_state.md R26). -/
inductive RunStatus where
  | running
  | halted
  | aborted (record : Abort)
deriving DecidableEq, Repr

/-- RAM as the bytes of its image: word `i` at byte addresses `4i` to `4i+3`, least significant byte first
(70_reset_and_hazards.md R213, log 2), as (address, byte) pairs in the canonical form `memoryWf` names. -/
abbrev Memory := List Host.Cell

/-- The whole machine (10_state.md). `regs` is `x[0]` to `x[7]` (R20), `suppress` the one-shot flag (R30), and
`ramWords` the parameter RAM_WORDS (00_scope.md R7, log 1), which no step changes. -/
structure State where
  regs : Vector Word 8
  pc : Word
  flags : Flags
  ir : Word
  suppress : Bool
  status : RunStatus
  mem : Memory
  ramWords : Nat
deriving DecidableEq, Repr

/-- The reasons a step could stop outside the machine's own fault entry. There is NONE: every fatal error of the
spec is taken as the spec describes it, a next state whose status is `aborted` (60_exceptions.md R190, log 4), so
no step answers a fault and the type has no constructor. -/
inductive Fault where
deriving DecidableEq, Repr

/-- The reasons an instruction could be refused. -/
inductive Refusal where
  /-- Raised by an arm of `exec` whose instruction has no meaning yet, and safe: the run stops there. No arm raises
  it, since all 19 instructions have their meaning. -/
  | notModelled (mnemonic : String)
deriving DecidableEq, Repr

/-- The state the host operation `Reset` creates in a machine of `n` RAM words (10_state.md R34,
70_reset_and_hazards.md R210, R211): everything zero, the status running, RAM all zero. -/
def State.resetWith (n : Nat) : State where
  regs := Vector.replicate 8 0
  pc := 0
  flags := ⟨false, false, false⟩
  ir := 0
  suppress := false
  status := .running
  mem := []
  ramWords := n

/-- The machine right after reset, with the RAM_WORDS of the test vectors (DESIGN CHOICE, unsafe: log 1). -/
def State.reset : State := State.resetWith Config.resetRamWords

end Sys2Proof.Machine
end

