-- ==== Sys2Proof/Machine/Ops.lean ====
section
/-! DEFINITION. The named operations over registers and RAM, the effects of a handler, the advance of the program
counter, and fault entry (00_scope.md R11, R12; 20_memory.md; 40_execution_engine.md R97, R98; 60_exceptions.md
R190). -/

namespace Sys2Proof.Machine

/-! ### One field at a time -/

/-- Write general register `i`. No register is hard-wired (10_state.md R20). -/
def State.setReg (s : State) (i : Fin 8) (v : Word) : State := { s with regs := s.regs.set i v }

/-- Write the program counter. -/
def State.setPc (s : State) (v : Word) : State := { s with pc := v }

/-- Write all three flags. -/
def State.setFlags (s : State) (f : Flags) : State := { s with flags := f }

/-- Write the instruction register. -/
def State.setIr (s : State) (w : Word) : State := { s with ir := w }

/-- Write the one-shot suppress flag. -/
def State.setSuppress (s : State) (b : Bool) : State := { s with suppress := b }

/-- Write the run status. -/
def State.setStatus (s : State) (t : RunStatus) : State := { s with status := t }

/-- Replace RAM. -/
def State.setMem (s : State) (m : Memory) : State := { s with mem := m }

/-! ### RAM: the bytes of the image, and the words the machine names -/

/-- What an unlisted byte reads as: RAM is all zero where nothing was loaded or written (20_memory.md R58,
70_reset_and_hazards.md R210; log 3). -/
def unlistedByte : Byte := 0

/-- The canonical form: addresses strictly rising, and no entry equal to what an unlisted address reads as. -/
def memoryWf : Memory → Bool
  | [] => true
  | (k, b) :: rest => decide (b ≠ unlistedByte) && rest.all (fun c => decide (k < c.1)) && memoryWf rest

/-- Read one byte. -/
def readByte : Memory → Nat → Byte
  | [], _ => unlistedByte
  | (k, b) :: rest, a => if k = a then b else readByte rest a

/-- Put an entry for address `a` before `rest`, or none where the value is what an unlisted address reads as. -/
def consByte (a : Nat) (v : Byte) (rest : Memory) : Memory :=
  if v = unlistedByte then rest else (a, v) :: rest

/-- Write one byte, keeping the canonical form. -/
def writeByte : Memory → Nat → Byte → Memory
  | [], a, v => consByte a v []
  | (k, b) :: rest, a, v =>
    if a < k then consByte a v ((k, b) :: rest)
    else if a = k then consByte a v rest
    else (k, b) :: writeByte rest a v

/-- Read the RAM word at word address `a` (20_memory.md R44). -/
def readWord (m : Memory) (a : Nat) : Word :=
  wordOfBytes (readByte m (4 * a)) (readByte m (4 * a + 1)) (readByte m (4 * a + 2)) (readByte m (4 * a + 3))

/-- Write the RAM word at word address `a`: the whole word is replaced (20_memory.md R46). -/
def writeWord (m : Memory) (a : Nat) (v : Word) : Memory :=
  writeByte (writeByte (writeByte (writeByte m (4 * a) (byteOfWord v 0)) (4 * a + 1) (byteOfWord v 1))
    (4 * a + 2) (byteOfWord v 2)) (4 * a + 3) (byteOfWord v 3)

/-- Write a sequence of bytes from byte address `a` up. -/
def writeBytes : Memory → Nat → List Byte → Memory
  | m, _, [] => m
  | m, a, b :: rest => writeBytes (writeByte m a b) (a + 1) rest

/-! ### The checked primitives of 00_scope.md R11 -/

/-- The check that `i` is a register's index (60_exceptions.md R185). -/
def checkRegister (i : Nat) : Except Abort (Fin 8) :=
  if h : i < Config.nregs then .ok ⟨i, h⟩ else .error (.registerIndexOutOfRange i)

/-- `x[i]`, the read of general register `i` (00_scope.md R11). -/
def readRegister (s : State) (i : Nat) : Except Abort Word :=
  (checkRegister i).map (fun j => s.regs[j])

/-- The check of a data address: `u(a) < RAM_WORDS` (20_memory.md R49). -/
def checkAddress (s : State) (a : Word) : Except Abort Unit :=
  if a.toNat < s.ramWords then .ok () else .error (.memoryAddressOutOfRange a)

/-- `MemRead(a, 1)` (00_scope.md R11). -/
def memRead (s : State) (a : Word) : Except Abort Word :=
  (checkAddress s a).map (fun _ => readWord s.mem a.toNat)

/-! ### A handler's result (40_execution_engine.md R98) -/

/-- The request to the advance phase: increment the program counter, or set it (00_scope.md R11). -/
inductive Next where
  | seq
  | jump (target : Word)
deriving DecidableEq, Repr

/-- The effects of a handler: at most one register write, at most one RAM write, optionally all three flags, and
optionally the halt (40_execution_engine.md R98). -/
structure Effects where
  register : Option (Fin 8 × Word) := none
  ram : Option (Word × Word) := none
  flags : Option Flags := none
  halt : Bool := false
deriving DecidableEq, Repr

/-- A handler answers a fault, or its effects and its request to the advance phase (40_execution_engine.md R98). -/
abbrev HandlerResult := Except Abort (Effects × Next)

/-- The one register write, if any. -/
def applyRegister (s : State) : Option (Fin 8 × Word) → State
  | none => s
  | some (i, v) => s.setReg i v

/-- The one RAM write, if any. Its address was checked by the handler (00_scope.md R12). -/
def applyRam (s : State) : Option (Word × Word) → State
  | none => s
  | some (a, v) => s.setMem (writeWord s.mem a.toNat v)

/-- The write of the three flags, if any. -/
def applyFlags (s : State) : Option Flags → State
  | none => s
  | some f => s.setFlags f

/-- The halt, if asked for: `status <- halted` (44_system.md R170). -/
def applyHalt (s : State) (halt : Bool) : State := if halt then s.setStatus .halted else s

/-- All effects of a handler that completed, applied together (00_scope.md R12). -/
def applyEffects (s : State) (e : Effects) : State :=
  applyHalt (applyFlags (applyRam (applyRegister s e.register) e.ram) e.flags) e.halt

/-- A handler's request as the one-shot suppress flag: a jump sets the program counter and raises the flag
(10_state.md R30, log 6). -/
def requestNext (s : State) : Next → State
  | .seq => s.setSuppress false
  | .jump t => (s.setPc t).setSuppress true

/-- The advance phase (40_execution_engine.md R97): consume the one-shot flag and leave the program counter, or
increment it modulo 2^32. -/
def advance (s : State) : State := if s.suppress then s.setSuppress false else s.setPc (s.pc + 1)

/-- FAULT ENTRY (60_exceptions.md R190): the status records the cause and its information. The program counter,
every register, flag and RAM word keep their values; there is no vector and nothing else is saved. There is NO
RETURN from a fault (R191): only the host's `Reset` leaves `aborted` (70_reset_and_hazards.md R212). -/
def raise (s : State) (f : Abort) : State := s.setStatus (.aborted f)

/-- The end of dispatch: a fault enters `aborted` with none of the handler's effects, and a completed handler has
its effects applied and then the advance phase (40_execution_engine.md R93). -/
def complete (s : State) : HandlerResult → Host.Outcome State Fault Refusal
  | .error f => .next (raise s f)
  | .ok (e, n) => .next (advance (requestNext (applyEffects s e) n))

/-! ### The fault record (60_exceptions.md R181) -/

/-- The code number of the cause. -/
def Abort.code : Abort → Nat
  | .programCounterOutOfRange _ => 1
  | .nonCanonicalWord _ => 2
  | .unknownOpcode _ => 3
  | .registerIndexOutOfRange _ => 4
  | .memoryAddressOutOfRange _ => 5
  | .divideByZero _ => 6
  | .shiftAmountOutOfRange _ => 7

/-- The `info` the cause records, as a number. -/
def Abort.info : Abort → Nat
  | .programCounterOutOfRange pc => pc.toNat
  | .nonCanonicalWord ir => ir.toNat
  | .unknownOpcode opcode => opcode
  | .registerIndexOutOfRange index => index
  | .memoryAddressOutOfRange address => address.toNat
  | .divideByZero pc => pc.toNat
  | .shiftAmountOutOfRange amount => amount.toNat

/-- The halted flag the host reads: true exactly when the status is `halted` (10_state.md R26). -/
def State.isHalted (s : State) : Bool := decide (s.status = .halted)

end Sys2Proof.Machine
end

