-- ==== Sys2Proof/Machine/Flags.lean ====
section
/-! DEFINITION. The flag computations (10_state.md R25): `cmp` writes all three flags, `adc` and `sbb` read the
carry; no other instruction touches a flag. -/

namespace Sys2Proof.Machine

/-- The three outcomes of the unsigned comparison `cmp` makes (41_alu.md R130). -/
def compareFlags (va vb : Word) : Flags :=
  if va.toNat < vb.toNat then ⟨true, true, false⟩
  else if va = vb then ⟨false, false, true⟩
  else ⟨false, false, false⟩

/-- `zext_32(C)`, the carry or borrow `adc` and `sbb` take in (41_alu.md R128, R129). -/
def carryIn (s : State) : Word := if s.flags.C then 1 else 0

end Sys2Proof.Machine
end

