-- ==== Sys2Proof/Machine/Operands.lean ====
section
/-! DEFINITION. Operand resolution: the building blocks of 40_execution_engine.md R101 to R104, and one named
function per opcode (R100, R105). In each, operand a is resolved before operand b (R106). -/

namespace Sys2Proof.Machine

/-- `zext_32` of a field: index fields and offsets are unsigned (30_encoding.md R66). -/
def zext32 (n : Nat) : Word := BitVec.ofNat 32 n

/-- `sext_N`, defined for completeness as in 00_scope.md R10: no field of this ISA is sign-extended. -/
def sext32 {n : Nat} (v : BitVec n) : Word := v.signExtend 32

/-- The dereference rule (40_execution_engine.md R101): an untagged operand is a register's value, a tagged one the
RAM word at its index. -/
def resolveDeref (s : State) : Operand → Except Abort Word
  | .untagged i => readRegister s i
  | .tagged i => memRead s (zext32 i)

/-- The value rule (40_execution_engine.md R102): an untagged operand is a register's value, a tagged one its index
itself. -/
def resolveValue (s : State) : Operand → Except Abort Word
  | .untagged i => readRegister s i
  | .tagged i => .ok (zext32 i)

/-- The plain register, its mode ignored (40_execution_engine.md R103). -/
def resolvePlainReg (s : State) (i : Nat) : Except Abort Word := readRegister s i

/-- The destination of an arithmetic or logic instruction, always a register slot (40_execution_engine.md R104). -/
def resolveDest (r : Nat) : Except Abort (Fin 8) := checkRegister r

/-- Two operands, the first before the second (40_execution_engine.md R106). -/
def inOrder (a b : Except Abort Word) : Except Abort (Word × Word) := do
  let va ← a
  let vb ← b
  return (va, vb)

/-! ### One resolution per opcode (40_execution_engine.md R105) -/

/-- `add`: both dereferenced. -/
def operandsAdd (s : State) (a b : Operand) := inOrder (resolveDeref s a) (resolveDeref s b)

/-- `nand`: both by value, a tagged operand is the number itself. -/
def operandsNand (s : State) (a b : Operand) := inOrder (resolveValue s a) (resolveValue s b)

/-- `idiv`: both dereferenced. -/
def operandsIdiv (s : State) (a b : Operand) := inOrder (resolveDeref s a) (resolveDeref s b)

/-- `imul`: both dereferenced. -/
def operandsImul (s : State) (a b : Operand) := inOrder (resolveDeref s a) (resolveDeref s b)

/-- `and`: both dereferenced, unlike `nand`. -/
def operandsAnd (s : State) (a b : Operand) := inOrder (resolveDeref s a) (resolveDeref s b)

/-- `xor`: both dereferenced. -/
def operandsXor (s : State) (a b : Operand) := inOrder (resolveDeref s a) (resolveDeref s b)

/-- `shr`: both dereferenced. -/
def operandsShr (s : State) (a b : Operand) := inOrder (resolveDeref s a) (resolveDeref s b)

/-- `adc`: both dereferenced (D17). -/
def operandsAdc (s : State) (a b : Operand) := inOrder (resolveDeref s a) (resolveDeref s b)

/-- `sbb`: both dereferenced (D17). -/
def operandsSbb (s : State) (a b : Operand) := inOrder (resolveDeref s a) (resolveDeref s b)

/-- `cmp`: two plain registers, `reg_a.idx` and `reg_r` (41_alu.md R130, D16). -/
def operandsCmp (s : State) (a r : Nat) := inOrder (resolvePlainReg s a) (readRegister s r)

/-- `lw`: the base, by value (42_load_store.md R150). -/
def baseLw (s : State) (b : Operand) := resolveValue s b

/-- `sw`: the base and the stored value, both by value (42_load_store.md R151, D19). -/
def operandsSw (s : State) (a b : Operand) := inOrder (resolveValue s a) (resolveValue s b)

/-- `beq`: both by value (43_control.md R160). -/
def operandsBeq (s : State) (a b : Operand) := inOrder (resolveValue s a) (resolveValue s b)

/-- The link location of `jalr`: the RAM address a tagged index is, or the RAM address an untagged index's register
holds (43_control.md R161, D21). -/
def linkJalr (s : State) : Operand → Except Abort Word
  | .tagged i => .ok (zext32 i)
  | .untagged i => readRegister s i

/-- `jalr`: the link location, then the target by value (43_control.md R161). -/
def operandsJalr (s : State) (a b : Operand) := inOrder (linkJalr s a) (resolveValue s b)

/-- The effective address of `lw` and `sw`: base plus offset modulo 2^32 (20_memory.md R50). -/
def effectiveAddress (base : Word) (offset : Nat) : Word := base + zext32 offset

end Sys2Proof.Machine
end

