-- ==== Sys2Proof/Machine/Alu.lean ====
section
/-! DEFINITION. Arithmetic, logic and compare: add, nand, inc, idiv, imul, and, xor, shr, adc, sbb, cmp (41_alu.md).
-/

namespace Sys2Proof.Machine

/-- The handler the instructions with a destination `reg_r` share: the operands, the arithmetic check and result,
then the destination check, then the one register write (40_execution_engine.md R104, R106; 60_exceptions.md R189). -/
def aluHandler (operands : Except Abort (Word × Word)) (f : Word → Word → Except Abort Word) (r : Nat) :
    HandlerResult := do
  let (va, vb) ← operands
  let v ← f va vb
  let d ← resolveDest r
  return ({ register := some (d, v) }, .seq)

/-- The unsigned quotient rounded toward zero; a zero divisor raises with the pc (41_alu.md R123). -/
def quotient (pc va vb : Word) : Except Abort Word :=
  if vb = 0 then .error (.divideByZero pc) else .ok (BitVec.ofNat 32 (va.toNat / vb.toNat))

/-- The logical shift right; an amount of 32 or more, read as a whole unsigned Word, raises (41_alu.md R127). -/
def shiftRight (va vb : Word) : Except Abort Word :=
  if 32 ≤ vb.toNat then .error (.shiftAmountOutOfRange vb) else .ok (va >>> vb.toNat)

/-- `add` (41_alu.md R120). -/
def execAdd (a b : Operand) (r : Nat) (s : State) : Host.Outcome State Fault Refusal :=
  complete s (aluHandler (operandsAdd s a b) (fun va vb => .ok (va + vb)) r)

/-- `nand` (41_alu.md R121). -/
def execNand (a b : Operand) (r : Nat) (s : State) : Host.Outcome State Fault Refusal :=
  complete s (aluHandler (operandsNand s a b) (fun va vb => .ok (~~~(va &&& vb))) r)

/-- The handler of `inc`: register `i` if untagged, RAM word `i` if tagged, plus 1 (41_alu.md R122). -/
def incHandler (s : State) : Operand → HandlerResult
  | .untagged i => do
    let d ← checkRegister i
    return ({ register := some (d, s.regs[d] + 1) }, .seq)
  | .tagged i => do
    let v ← memRead s (zext32 i)
    return ({ ram := some (zext32 i, v + 1) }, .seq)

/-- `inc` (41_alu.md R122). -/
def execInc (a : Operand) (s : State) : Host.Outcome State Fault Refusal :=
  complete s (incHandler s a)

/-- `idiv` (41_alu.md R123). -/
def execIdiv (a b : Operand) (r : Nat) (s : State) : Host.Outcome State Fault Refusal :=
  complete s (aluHandler (operandsIdiv s a b) (quotient s.pc) r)

/-- `imul`: the low 32 bits of the product (41_alu.md R124). -/
def execImul (a b : Operand) (r : Nat) (s : State) : Host.Outcome State Fault Refusal :=
  complete s (aluHandler (operandsImul s a b) (fun va vb => .ok (va * vb)) r)

/-- `and` (41_alu.md R125). -/
def execAnd (a b : Operand) (r : Nat) (s : State) : Host.Outcome State Fault Refusal :=
  complete s (aluHandler (operandsAnd s a b) (fun va vb => .ok (va &&& vb)) r)

/-- `xor` (41_alu.md R126). -/
def execXor (a b : Operand) (r : Nat) (s : State) : Host.Outcome State Fault Refusal :=
  complete s (aluHandler (operandsXor s a b) (fun va vb => .ok (va ^^^ vb)) r)

/-- `shr` (41_alu.md R127). -/
def execShr (a b : Operand) (r : Nat) (s : State) : Host.Outcome State Fault Refusal :=
  complete s (aluHandler (operandsShr s a b) shiftRight r)

/-- `adc` (41_alu.md R128). -/
def execAdc (a b : Operand) (r : Nat) (s : State) : Host.Outcome State Fault Refusal :=
  complete s (aluHandler (operandsAdc s a b) (fun va vb => .ok (va + vb + carryIn s)) r)

/-- `sbb` (41_alu.md R129). -/
def execSbb (a b : Operand) (r : Nat) (s : State) : Host.Outcome State Fault Refusal :=
  complete s (aluHandler (operandsSbb s a b) (fun va vb => .ok (va - vb - carryIn s)) r)

/-- The handler of `cmp`: the flags are its only effect (41_alu.md R130). -/
def cmpHandler (s : State) (a r : Nat) : HandlerResult := do
  let (va, vb) ← operandsCmp s a r
  return ({ flags := some (compareFlags va vb) }, .seq)

/-- `cmp` (41_alu.md R130). -/
def execCmp (a r : Nat) (s : State) : Host.Outcome State Fault Refusal :=
  complete s (cmpHandler s a r)

end Sys2Proof.Machine
end

