-- ==== Sys2Proof/Machine/Control.lean ====
section
/-! DEFINITION. Control transfer: beq, jalr, jma, jmbe (43_control.md). -/

namespace Sys2Proof.Machine

/-- The handler of `beq`: a taken branch goes to `pc + offset + 1`, since it does not suppress the increment
(43_control.md R160, D20). -/
def beqHandler (s : State) (a b : Operand) (offset : Nat) : HandlerResult := do
  let (va, vb) ← operandsBeq s a b
  return ({}, if va = vb then .jump (s.pc + zext32 offset + 1) else .seq)

/-- `beq` (43_control.md R160). -/
def execBeq (a b : Operand) (offset : Nat) (s : State) : Host.Outcome State Fault Refusal :=
  complete s (beqHandler s a b offset)

/-- The handler of `jalr`: the return address goes to RAM, never to a register, and the target is not checked
(43_control.md R161, C1). -/
def jalrHandler (s : State) (a b : Operand) : HandlerResult := do
  let (link, target) ← operandsJalr s a b
  checkAddress s link
  return ({ ram := some (link, s.pc + 1) }, .jump target)

/-- `jalr` (43_control.md R161). -/
def execJalr (a b : Operand) (s : State) : Host.Outcome State Fault Refusal :=
  complete s (jalrHandler s a b)

/-- `jma`: reserved, executes as a no-op (43_control.md R168). -/
def execJma (s : State) : Host.Outcome State Fault Refusal := complete s (.ok ({}, .seq))

/-- `jmbe`: reserved, executes as a no-op (43_control.md R169). -/
def execJmbe (s : State) : Host.Outcome State Fault Refusal := complete s (.ok ({}, .seq))

end Sys2Proof.Machine
end

