-- ==== Sys2Proof/Machine/LoadStore.lean ====
section
/-! DEFINITION. Loads and stores: lw, sw (42_load_store.md). -/

namespace Sys2Proof.Machine

/-- The handler of `lw`: the load address is checked and read before the destination index (42_load_store.md R150,
60_exceptions.md R189). -/
def lwHandler (s : State) (d : Nat) (b : Operand) (offset : Nat) : HandlerResult := do
  let base ← baseLw s b
  let v ← memRead s (effectiveAddress base offset)
  let rd ← checkRegister d
  return ({ register := some (rd, v) }, .seq)

/-- `lw` (42_load_store.md R150). -/
def execLw (d : Nat) (b : Operand) (offset : Nat) (s : State) : Host.Outcome State Fault Refusal :=
  complete s (lwHandler s d b offset)

/-- The handler of `sw`: the base, the stored value, then the address check (42_load_store.md R151). -/
def swHandler (s : State) (a b : Operand) (offset : Nat) : HandlerResult := do
  let (base, v) ← operandsSw s a b
  checkAddress s (effectiveAddress base offset)
  return ({ ram := some (effectiveAddress base offset, v) }, .seq)

/-- `sw` (42_load_store.md R151). -/
def execSw (a b : Operand) (offset : Nat) (s : State) : Host.Outcome State Fault Refusal :=
  complete s (swHandler s a b offset)

end Sys2Proof.Machine
end

