-- ==== Sys2Proof/Machine/System.lean ====
section
/-! DEFINITION. System instructions: halt, noop (44_system.md). -/

namespace Sys2Proof.Machine

/-- `halt`: the status becomes halted, and the program counter advances (44_system.md R170). -/
def execHalt (s : State) : Host.Outcome State Fault Refusal := complete s (.ok ({ halt := true }, .seq))

/-- `noop` (44_system.md R171). -/
def execNoop (s : State) : Host.Outcome State Fault Refusal := complete s (.ok ({}, .seq))

end Sys2Proof.Machine
end

