-- ==== Sys2Proof/Machine/Dispatch.lean ====
section
/-! DEFINITION. The fixed opcode to handler table (40_execution_engine.md R96): one arm per instruction, no default. -/

namespace Sys2Proof.Machine

def exec (i : Instr) (s : State) : Host.Outcome State Fault Refusal :=
  match i with
  | .add a b r => Sys2Proof.Machine.execAdd a b r s
  | .nand a b r => Sys2Proof.Machine.execNand a b r s
  | .lw d b offset => Sys2Proof.Machine.execLw d b offset s
  | .sw a b offset => Sys2Proof.Machine.execSw a b offset s
  | .beq a b offset => Sys2Proof.Machine.execBeq a b offset s
  | .jalr a b => Sys2Proof.Machine.execJalr a b s
  | .halt => Sys2Proof.Machine.execHalt s
  | .noop => Sys2Proof.Machine.execNoop s
  | .inc a => Sys2Proof.Machine.execInc a s
  | .idiv a b r => Sys2Proof.Machine.execIdiv a b r s
  | .imul a b r => Sys2Proof.Machine.execImul a b r s
  | .and a b r => Sys2Proof.Machine.execAnd a b r s
  | .xor a b r => Sys2Proof.Machine.execXor a b r s
  | .shr a b r => Sys2Proof.Machine.execShr a b r s
  | .adc a b r => Sys2Proof.Machine.execAdc a b r s
  | .sbb a b r => Sys2Proof.Machine.execSbb a b r s
  | .cmp a r => Sys2Proof.Machine.execCmp a r s
  | .jma => Sys2Proof.Machine.execJma s
  | .jmbe => Sys2Proof.Machine.execJmbe s

end Sys2Proof.Machine
end

