-- ==== Sys2Proof/Machine/Fetch.lean ====
section
/-! DEFINITION. The fetch and decode phases of a step (40_execution_engine.md R94, R95). -/

namespace Sys2Proof.Machine

/-- The word the step fetches: RAM at the program counter, which must be within RAM (40_execution_engine.md R94). -/
def fetch (s : State) : Except Abort Word :=
  if s.pc.toNat < s.ramWords then .ok (readWord s.mem s.pc.toNat) else .error (.programCounterOutOfRange s.pc)

/-- The cause the decode phase raises (40_execution_engine.md R95). -/
def abortOfDecode : DecodeError → Abort
  | .nonCanonicalWord w => .nonCanonicalWord w
  | .unknownOpcode opcode => .unknownOpcode opcode

end Sys2Proof.Machine
end

