-- ==== Sys2Proof/Machine/Step.lean ====
section
/-! DEFINITION. One step of the machine (40_execution_engine.md R93), and the placing of one instruction where the
next step fetches it. -/

namespace Sys2Proof.Machine

/-- One step: fetch, decode, dispatch and advance, or a fault entry (40_execution_engine.md R93). In `halted` and
`aborted` nothing changes (R91, R117; log 5). The fetched word stays in `ir` even when a later phase faults. -/
def step (s : State) : Host.Outcome State Fault Refusal :=
  match s.status with
  | .running =>
    match fetch s with
    | .error f => .next (raise s f)
    | .ok w =>
      match decode w with
      | .error e => .next (raise (s.setIr w) (abortOfDecode e))
      | .ok i => exec i (s.setIr w)
  | .halted => .next s
  | .aborted _ => .next s

/-- `s` with the instruction whose bits are `w` in the RAM word at the program counter, where a running machine's
next step fetches. It stands for the host's load of that word (70_reset_and_hazards.md R213, log 7). -/
def State.withFetchWord (s : State) (nbits w : Nat) : State :=
  s.setMem (writeWord s.mem s.pc.toNat (tableWord nbits w))

end Sys2Proof.Machine
end

