-- ==== Sys2Proof/Machine/HostPort.lean ====
section
/-! DEFINITION. The six operations of the machine's host (40_execution_engine.md R115 to R119;
70_reset_and_hazards.md R210 to R214). They lie outside the step. -/

namespace Sys2Proof.Machine

/-- The machine with what the rules about presets need: whether a step was performed since the last `Reset`
(40_execution_engine.md R116; log 9). -/
structure Session where
  machine : State
  stepped : Bool
deriving DecidableEq, Repr

/-- What `Read` returns: a copy of the state (40_execution_engine.md R118). -/
structure Observation where
  registers : List Word
  flags : Flags
  pc : Word
  halted : Bool
  status : RunStatus
  ir : Word
  ram : List Word
deriving DecidableEq, Repr

/-- The host's six operations, and nothing else (40_execution_engine.md R115). A missing image file is `none`
(R119). -/
inductive HostOp where
  | reset
  | loadImage (file : Option (List Byte))
  | presetRegister (index : Nat) (value : Word)
  | presetFlags (flags : Flags)
  | step
  | read
deriving DecidableEq, Repr

/-- What the host gets back. -/
inductive HostReply where
  /-- the operation was performed -/
  | done
  /-- `Step` returns the new status (40_execution_engine.md R117) -/
  | status (t : RunStatus)
  /-- `Read` returns the copy (40_execution_engine.md R118) -/
  | observation (o : Observation)
  /-- the load ended with an error and nothing was written (40_execution_engine.md R119) -/
  | loadError (e : ToolError)
  /-- a load or a preset after the first `Step` is not offered (40_execution_engine.md R116) -/
  | refusedAfterStep
  /-- a preset of register `index` requires `index < NREGS` (40_execution_engine.md R115) -/
  | refusedRegister (index : Nat)
deriving DecidableEq, Repr

/-- A machine of `n` RAM words right after `Reset`. -/
def Session.boot (n : Nat) : Session := ⟨State.resetWith n, false⟩

/-- `Read`'s copy of the state (40_execution_engine.md R118). -/
def observe (s : State) : Observation where
  registers := s.regs.toList
  flags := s.flags
  pc := s.pc
  halted := s.isHalted
  status := s.status
  ir := s.ir
  ram := (List.range s.ramWords).map (readWord s.mem)

/-- `Reset`: a fresh state that keeps nothing of an earlier run (70_reset_and_hazards.md R210, R212). -/
def hostReset (p : Session) : Session × HostReply := (Session.boot p.machine.ramWords, .done)

/-- `LoadImage`: exactly `RAM_WORDS * WORD_BYTES` bytes, byte `j` of the image at byte `j` of RAM
(70_reset_and_hazards.md R213, 40_execution_engine.md R119). -/
def hostLoadImage (p : Session) (file : Option (List Byte)) : Session × HostReply :=
  if p.stepped then (p, .refusedAfterStep)
  else
    match file with
    | none => (p, .loadError .imageNotFoundError)
    | some bytes =>
      if bytes.length = p.machine.ramWords * Config.wordBytes then
        (⟨p.machine.setMem (writeBytes p.machine.mem 0 bytes), false⟩, .done)
      else (p, .loadError .invalidImageSizeError)

/-- `PresetRegister(i, v)` (40_execution_engine.md R115, R116). -/
def hostPresetRegister (p : Session) (index : Nat) (value : Word) : Session × HostReply :=
  if p.stepped then (p, .refusedAfterStep)
  else if h : index < Config.nregs then (⟨p.machine.setReg ⟨index, h⟩ value, false⟩, .done)
  else (p, .refusedRegister index)

/-- `PresetFlags(C, S, Z)` (40_execution_engine.md R115, R116). -/
def hostPresetFlags (p : Session) (flags : Flags) : Session × HostReply :=
  if p.stepped then (p, .refusedAfterStep) else (⟨p.machine.setFlags flags, false⟩, .done)

/-- `Step`: one step while running; in `halted` and `aborted` it changes nothing (40_execution_engine.md R117). -/
def hostStep (p : Session) : Session × HostReply :=
  match step p.machine with
  | .next s => (⟨s, true⟩, .status s.status)
  | .fault _ => (p, .status p.machine.status)
  | .refused _ => (p, .status p.machine.status)

/-- One operation of the host (40_execution_engine.md R115). -/
def hostDo (p : Session) : HostOp → Session × HostReply
  | .reset => hostReset p
  | .loadImage file => hostLoadImage p file
  | .presetRegister index value => hostPresetRegister p index value
  | .presetFlags flags => hostPresetFlags p flags
  | .step => hostStep p
  | .read => (p, .observation (observe p.machine))

/-- The state after a list of operations. -/
def hostRun (p : Session) (ops : List HostOp) : Session := ops.foldl (fun q op => (hostDo q op).1) p

end Sys2Proof.Machine
end

