-- ==== Sys2Proof/Machine/Assembler.lean ====
section
/-! DEFINITION. The assembler's text syntax and output (30_encoding.md R82 to R87). It is software outside the
block (00_scope.md R5): no step uses this file. -/

namespace Sys2Proof.Machine

/-- A token: a run of characters without white space. -/
abbrev Token := List Char

/-! ### Normalisation (30_encoding.md R82) -/

/-- Split at each character `sep` holds of. -/
def splitWhere (sep : Char → Bool) : List Char → List (List Char)
  | [] => [[]]
  | c :: cs =>
    if sep c then [] :: splitWhere sep cs
    else
      match splitWhere sep cs with
      | [] => [[c]]
      | piece :: pieces => (c :: piece) :: pieces

/-- A line without its comment, as its tokens. -/
def lineTokens (line : List Char) : List Token :=
  (splitWhere Char.isWhitespace (line.takeWhile (fun c => c ≠ ';'))).filter (fun t => !t.isEmpty)

/-- The source as its non-blank lines, each as its tokens. -/
def sourceLines (text : List Char) : List (List Token) :=
  ((splitWhere (fun c => c = '\n') text).map lineTokens).filter (fun l => !l.isEmpty)

/-- The normalised text: one space between tokens, one line end between lines. -/
def normalise (text : List Char) : List Char :=
  ['\n'].intercalate ((sourceLines text).map (fun l => [' '].intercalate l))

/-! ### Labels (30_encoding.md R83) -/

/-- A token that names a label: `$` and one or more characters. -/
def isLabel : Token → Bool
  | '$' :: _ :: _ => true
  | _ => false

/-- A line with its label, if its first token is one, and what follows. -/
structure SourceLine where
  label : Option Token
  body : List Token
deriving DecidableEq, Repr

/-- Take the label off a line. -/
def takeLabel : List Token → SourceLine
  | [] => ⟨none, []⟩
  | t :: rest => if isLabel t then ⟨some t, rest⟩ else ⟨none, t :: rest⟩

/-- The labels of all lines from address `a` up, each with the address of its line; defining one twice is an
error. -/
def collectLabels : Nat → List (Token × Nat) → List SourceLine → Except ToolError (List (Token × Nat))
  | _, known, [] => .ok known
  | a, known, l :: rest =>
    match l.label with
    | none => collectLabels (a + 1) known rest
    | some t =>
      match known.lookup t with
      | some _ => .error .duplicateLabelError
      | none => collectLabels (a + 1) ((t, a) :: known) rest

/-! ### Arguments (30_encoding.md R84) -/

/-- The value of a decimal digit. -/
def digitValue (c : Char) : Option Nat :=
  if '0'.toNat ≤ c.toNat ∧ c.toNat ≤ '9'.toNat then some (c.toNat - '0'.toNat) else none

/-- Decimal digits, with the value of those already read. -/
def digitsFrom : Nat → Token → Option Nat
  | n, [] => some n
  | n, c :: cs =>
    match digitValue c with
    | some d => digitsFrom (10 * n + d) cs
    | none => none

/-- A decimal number of one or more digits. -/
def decimalNat (t : Token) : Option Nat := if t.isEmpty then none else digitsFrom 0 t

/-- A decimal integer, with or without a minus sign. -/
def decimalInt : Token → Option Int
  | '-' :: t => (decimalNat t).map (fun n => -(n : Int))
  | t => (decimalNat t).map (fun n => (n : Int))

/-- A register token `r[0-7]` of the A and B positions. -/
def registerToken : Token → Option Nat
  | ['r', c] => (digitValue c).filter (fun n => n < Config.nregs)
  | _ => none

/-- An argument of the A or B position: a register or a label. -/
def operandArg (labels : List (Token × Nat)) (t : Token) : Except ToolError Operand :=
  match registerToken t with
  | some n => .ok (.untagged n)
  | none =>
    if isLabel t then
      match labels.lookup t with
      | some a => .ok (.tagged a)
      | none => .error .unresolvedLabelError
    else .error .encodingRangeError

/-- An argument of the Rdest position: a register of any number the field can hold. -/
def destArg : Token → Except ToolError Int
  | 'r' :: t =>
    match decimalNat t with
    | some n => .ok n
    | none => .error .encodingRangeError
  | _ => .error .encodingRangeError

/-- An argument of the offset position: a bare decimal integer. -/
def offsetArg (t : Token) : Except ToolError Int :=
  match decimalInt t with
  | some n => .ok n
  | none => .error .encodingRangeError

/-! ### Lines to words (30_encoding.md R69, R85, R86) -/

/-- An instruction line, by its operand shape; a missing or extra argument is an error (30_encoding.md R84, D33). -/
def assembleInstr (labels : List (Token × Nat)) (d : OpcodeDescriptor) (args : List Token) :
    Except ToolError Word :=
  match d.shape, args with
  | .none, [] => encodeTriple d.id 0 0 0
  | .single, [x] => do
    let a ← operandArg labels x
    encodeTriple d.id a.idx 0 0 a.mode
  | .pair, [x, y] => do
    let a ← operandArg labels x
    let b ← operandArg labels y
    encodeTriple d.id a.idx b.idx 0 a.mode b.mode
  | .pairDest, [x, y, z] => do
    let a ← operandArg labels x
    let b ← operandArg labels y
    let r ← destArg z
    encodeTriple d.id a.idx b.idx r a.mode b.mode
  | .pairOffset, [x, y, z] => do
    let a ← operandArg labels x
    let b ← operandArg labels y
    let n ← offsetArg z
    encodeOffset d.id a.idx b.idx n a.mode b.mode
  | _, _ => .error .encodingRangeError

/-- The data word of an integer in `-2^31` to `2^32 - 1`, a negative one modulo 2^32 (30_encoding.md R86). -/
def dataWord (n : Int) : Except ToolError Word :=
  if -(2 ^ 31) ≤ n ∧ n < 2 ^ 32 then .ok (BitVec.ofInt 32 n) else .error .encodingRangeError

/-- The directive `.fill dec <integer>` (30_encoding.md R86). -/
def assembleFill : List Token → Except ToolError Word
  | [] => .error .encodingRangeError
  | kind :: rest =>
    if kind = ['d', 'e', 'c'] then
      match rest with
      | [t] => (offsetArg t).bind dataWord
      | _ => .error .encodingRangeError
    else .error .unknownDirectiveError

/-- The word of one line's body (30_encoding.md R85, R86; log 14). -/
def assembleBody (labels : List (Token × Nat)) : List Token → Except ToolError Word
  | [] => .error .unknownMnemonicError
  | t :: args =>
    if t = ['.', 'f', 'i', 'l', 'l'] then assembleFill args
    else if t.head? = some '.' then .error .unknownDirectiveError
    else
      match opcodeTable.find? (fun d => d.mnemonic.toList == t) with
      | some d => assembleInstr labels d args
      | none => .error .unknownMnemonicError

/-- Every line's word, in order; the first line that fails ends the assembly (30_encoding.md R87). -/
def assembleLines (labels : List (Token × Nat)) : List SourceLine → Except ToolError (List Word)
  | [] => .ok []
  | l :: rest => do
    let w ← assembleBody labels l.body
    let ws ← assembleLines labels rest
    return w :: ws

/-- The assembler: an array of `ramWords` words, the unused trailing slots zero, or one error and no image
(30_encoding.md R87; the order of several errors: log 13). -/
def assemble (ramWords : Nat) (text : List Char) : Except ToolError (List Word) := do
  let lines := (sourceLines text).map takeLabel
  let labels ← collectLabels 0 [] lines
  let words ← assembleLines labels lines
  if ramWords < words.length then .error .programTooLargeError
  else return words ++ List.replicate (ramWords - words.length) 0

/-- The binary image of an assembled program (70_reset_and_hazards.md R213). -/
def imageBytes (words : List Word) : List Byte := words.flatMap bytesOfWord

end Sys2Proof.Machine
end

