-- ==== Sys2Proof/Safety.lean ====
section
/-! DEFINITION. What a state of a run satisfies, what counts as a safe run, and the terms the statements use: the
value an operand has, the fault it raises, and what an instruction may write. They are written from the spec's
rules and not from the resolution functions of the machine. -/

namespace Sys2Proof.Machine

/-! ### The invariant -/

/-- The fault record agrees with the state it left (60_exceptions.md R181, R190). -/
def recordAgrees (s : State) : Abort → Prop
  | .programCounterOutOfRange pc => pc = s.pc ∧ s.ramWords ≤ pc.toNat
  | .nonCanonicalWord w => w = s.ir ∧ slice w 31 24 ≠ 0
  | .unknownOpcode n => n = slice s.ir 23 19 ∧ Config.nopc ≤ n ∧ n ≤ 31
  | .registerIndexOutOfRange i => Config.nregs ≤ i ∧ i ≤ 127
  | .memoryAddressOutOfRange a => s.ramWords ≤ a.toNat
  | .divideByZero pc => pc = s.pc
  | .shiftAmountOutOfRange n => 32 ≤ n.toNat

/-- The machine's invariant: RAM is canonical and lists no byte outside `[0, 4 * RAM_WORDS)`, RAM_WORDS is legal
(00_scope.md R8), the one-shot flag is clear between steps (10_state.md R30), and a fault record agrees with the
state it left. -/
structure State.Inv (s : State) : Prop where
  memory_wf : memoryWf s.mem = true
  memory_in_ram : ∀ c ∈ s.mem, c.1 < 4 * s.ramWords
  ram_words_legal : Config.LegalRamWords s.ramWords
  suppress_clear : s.suppress = false
  record_agrees : ∀ f, s.status = .aborted f → recordAgrees s f

/-! ### Safe runs -/

/-- A state in which no fatal error has ended the run (10_state.md R26). -/
def State.Safe (s : State) : Prop := ∀ f, s.status ≠ .aborted f

/-- `k` steps from `s` that meet no fatal error (70_reset_and_hazards.md R219). -/
def SafeRun (k : Nat) (s : State) : Prop := ∃ t, Host.Core.run Sys2Proof.core k s = .next t ∧ t.Safe

/-! ### The value of an operand, and the fault it raises -/

/-- Register `i` exists and holds `v`. -/
def RegisterIs (s : State) (i : Nat) (v : Word) : Prop := ∃ h : i < 8, v = s.regs[i]

/-- Address `a` is in RAM and the word there is `v`. -/
def WordIs (s : State) (a v : Word) : Prop := a.toNat < s.ramWords ∧ v = readWord s.mem a.toNat

/-- The operand has the value `v` by the dereference rule (40_execution_engine.md R101). -/
def DerefIs (s : State) : Operand → Word → Prop
  | .untagged i, v => RegisterIs s i v
  | .tagged i, v => WordIs s (zext32 i) v

/-- The operand raises `f` by the dereference rule (40_execution_engine.md R101). -/
def DerefRaises (s : State) : Operand → Abort → Prop
  | .untagged i, f => 8 ≤ i ∧ f = .registerIndexOutOfRange i
  | .tagged i, f => s.ramWords ≤ (zext32 i).toNat ∧ f = .memoryAddressOutOfRange (zext32 i)

/-- The operand has the value `v` by the value rule (40_execution_engine.md R102). -/
def ValueIs (s : State) : Operand → Word → Prop
  | .untagged i, v => RegisterIs s i v
  | .tagged i, v => v = zext32 i

/-- The operand raises `f` by the value rule: a tagged one never does (40_execution_engine.md R102). -/
def ValueRaises : Operand → Abort → Prop
  | .untagged i, f => 8 ≤ i ∧ f = .registerIndexOutOfRange i
  | .tagged _, _ => False

/-! ### How an instruction is encoded -/

/-- The instruction has the opcode number, the operand shape and the mnemonic of a row of the opcode table, and every
word of it is canonical with that opcode (30_encoding.md R62, R67). -/
def EncodedAs (i : Instr) (opcode : Nat) (shape : OperandShape) (mnemonic : String) : Prop :=
  lookupById opcode = some ⟨opcode, shape, mnemonic⟩ ∧
    ∀ w, encode i = .ok w → slice w 31 24 = 0 ∧ slice w 23 19 = opcode

/-! ### What an instruction does -/

/-- The instruction completes in sequence with `v` in register `r`: nothing else changes but the program counter
(40_execution_engine.md R97, R98). -/
def WritesRegister (i : Instr) (s : State) (r : Nat) (v : Word) : Prop :=
  ∃ h : r < 8, exec i s = .next { s with regs := s.regs.set r v, pc := s.pc + 1, suppress := false }

/-- The instruction faults: the status records `f` and nothing else changes (60_exceptions.md R190). -/
def Raises (i : Instr) (s : State) (f : Abort) : Prop := exec i s = .next { s with status := .aborted f }

/-- The instruction completes in sequence and writes nothing. -/
def OnlyAdvances (i : Instr) (s : State) : Prop :=
  exec i s = .next { s with pc := s.pc + 1, suppress := false }

/-- The rule of an instruction with two dereferenced sources and the destination `r`, whose result is always
defined: the result, and the faults in the order a, b, destination (41_alu.md R120, 60_exceptions.md R189). -/
def DerefAluRule (i : Instr) (a b : Operand) (r : Nat) (s : State) (result : Word → Word → Word) : Prop :=
  (∀ va vb, DerefIs s a va → DerefIs s b vb → r < 8 → WritesRegister i s r (result va vb)) ∧
  (∀ f, DerefRaises s a f → Raises i s f) ∧
  (∀ va f, DerefIs s a va → DerefRaises s b f → Raises i s f) ∧
  (∀ va vb, DerefIs s a va → DerefIs s b vb → 8 ≤ r → Raises i s (.registerIndexOutOfRange r))

/-- The register an instruction may write (10_state.md R21). -/
def destRegister : Instr → Option Nat
  | .add _ _ r => some r
  | .nand _ _ r => some r
  | .lw d _ _ => some d
  | .sw _ _ _ => none
  | .beq _ _ _ => none
  | .jalr _ _ => none
  | .halt => none
  | .noop => none
  | .inc (.untagged i) => some i
  | .inc (.tagged _) => none
  | .idiv _ _ r => some r
  | .imul _ _ r => some r
  | .and _ _ r => some r
  | .xor _ _ r => some r
  | .shr _ _ r => some r
  | .adc _ _ r => some r
  | .sbb _ _ r => some r
  | .cmp _ _ => none
  | .jma => none
  | .jmbe => none

/-- The word address an instruction may store to, computed as its meaning computes it (20_memory.md R41). -/
def storeAddress (s : State) : Instr → Option Word
  | .add _ _ _ => none
  | .nand _ _ _ => none
  | .lw _ _ _ => none
  | .sw a _ offset => (resolveValue s a).toOption.map (fun base => effectiveAddress base offset)
  | .beq _ _ _ => none
  | .jalr a _ => (linkJalr s a).toOption
  | .halt => none
  | .noop => none
  | .inc (.untagged _) => none
  | .inc (.tagged i) => some (zext32 i)
  | .idiv _ _ _ => none
  | .imul _ _ _ => none
  | .and _ _ _ => none
  | .xor _ _ _ => none
  | .shr _ _ _ => none
  | .adc _ _ _ => none
  | .sbb _ _ _ => none
  | .cmp _ _ => none
  | .jma => none
  | .jmbe => none

/-- The instruction names a register: it is neither `halt`, `noop`, `jma` nor `jmbe`. -/
def namesRegister : Instr → Bool
  | .halt => false
  | .noop => false
  | .jma => false
  | .jmbe => false
  | _ => true

/-- Whether an operand's tag makes the dereference rule read RAM. -/
def isTagged : Operand → Bool
  | .tagged _ => true
  | .untagged _ => false

/-- The instruction accesses RAM data (60_exceptions.md R181, row 5): an instruction with dereferenced sources
where one is tagged, `inc` tagged, `lw`, `sw`, `jalr`. -/
def accessesRam : Instr → Bool
  | .add a b _ => isTagged a || isTagged b
  | .nand _ _ _ => false
  | .lw _ _ _ => true
  | .sw _ _ _ => true
  | .beq _ _ _ => false
  | .jalr _ _ => true
  | .halt => false
  | .noop => false
  | .inc a => isTagged a
  | .idiv a b _ => isTagged a || isTagged b
  | .imul a b _ => isTagged a || isTagged b
  | .and a b _ => isTagged a || isTagged b
  | .xor a b _ => isTagged a || isTagged b
  | .shr a b _ => isTagged a || isTagged b
  | .adc a b _ => isTagged a || isTagged b
  | .sbb a b _ => isTagged a || isTagged b
  | .cmp _ _ => false
  | .jma => false
  | .jmbe => false

/-- The causes the handler of an instruction may raise (60_exceptions.md R181). -/
def mayRaise (i : Instr) (s : State) : Abort → Prop
  | .programCounterOutOfRange _ => False
  | .nonCanonicalWord _ => False
  | .unknownOpcode _ => False
  | .registerIndexOutOfRange n => namesRegister i = true ∧ 8 ≤ n
  | .memoryAddressOutOfRange a => accessesRam i = true ∧ s.ramWords ≤ a.toNat
  | .divideByZero pc => (∃ a b r, i = .idiv a b r) ∧ pc = s.pc
  | .shiftAmountOutOfRange n => (∃ a b r, i = .shr a b r) ∧ 32 ≤ n.toNat

end Sys2Proof.Machine
end

