-- ==== Sys2Proof/Certificates/Slice0/Obligations.lean ====
section
/-! DEFINITION. The statements for the provers. Each docstring names the rules of spec/ it formalises. A statement
about the next state of `exec` gives the whole state, so it says what the instruction leaves unchanged as well. -/

open Sys2Proof Sys2Proof.Machine

/-! ### Reset and the invariant -/

/-- 70_reset_and_hazards.md R210 with the values of 10_state.md R34: what `Reset` leaves, for every RAM_WORDS and
whatever state the machine was in. That `Reset` keeps RAM_WORDS is the model's (log 1, log 16). -/
def Obligations.ResetGivesTheSpecValues : Prop :=
  ∀ n : Nat, (∀ i : Fin 8, (State.resetWith n).regs[i] = 0) ∧ (State.resetWith n).pc = 0 ∧
    (State.resetWith n).flags = ⟨false, false, false⟩ ∧ (State.resetWith n).ir = 0 ∧
    (State.resetWith n).suppress = false ∧ (State.resetWith n).status = .running ∧
    (∀ a, readWord (State.resetWith n).mem a = 0) ∧
    ∀ p : Session, p.machine.ramWords = n → (hostDo p .reset).1.machine = State.resetWith n

/-- The invariant holds after `Reset` for every legal RAM_WORDS, and so at the model's own reset state. -/
def Obligations.ResetMeetsTheInvariant : Prop :=
  (∀ n, Config.LegalRamWords n → (State.resetWith n).Inv) ∧ State.reset.Inv

/-- Every step keeps the invariant: RAM stays canonical and inside `[0, RAM_WORDS)` (20_memory.md R49), the
one-shot flag is clear between steps (10_state.md R30), and the fault record agrees with the state it left
(60_exceptions.md R181, R190). -/
def Obligations.EveryStepKeepsTheInvariant : Prop :=
  ∀ s t : State, s.Inv → step s = .next t → t.Inv

/-- Every operation of the host keeps the invariant (40_execution_engine.md R115; the session is log 9, the refusals are
log 16). -/
def Obligations.HostOperationsKeepTheInvariant : Prop :=
  ∀ (p : Session) (op : HostOp), p.machine.Inv → (hostDo p op).1.machine.Inv

/-! ### Encoding -/

/-- Decoding the word of a well-formed instruction gives the instruction back, for all 19 (30_encoding.md R73). -/
def Obligations.DecodeOfEncodeIsTheInstruction : Prop :=
  ∀ i : Instr, i.wellFormed = true → ∃ w, encode i = .ok w ∧ decode w = .ok i

/-- 30_encoding.md R73: the encoders and the decoder to fields are inverses, both ways. -/
def Obligations.FieldsRoundTrip : Prop :=
  (∀ op a b r am bm : Nat, op < 32 → a < 32 → b < 32 → r < 128 → am < 2 → bm < 2 →
    ∃ w, encodeTriple op a b r am bm = .ok w ∧ encodeOffset op a b r am bm = .ok w ∧
      decodeFields w = ⟨0, op, operandOf am a, operandOf bm b, r, r⟩) ∧
  (∀ w : Word, slice w 31 24 = 0 →
    encodeTriple (decodeFields w).opcode (decodeFields w).regA.idx (decodeFields w).regB.idx (decodeFields w).regR
      (decodeFields w).regA.mode (decodeFields w).regB.mode = .ok w ∧
    encodeOffset (decodeFields w).opcode (decodeFields w).regA.idx (decodeFields w).regB.idx
      (decodeFields w).operand (decodeFields w).regA.mode (decodeFields w).regB.mode = .ok w)

/-- 30_encoding.md R72: both encoders accept exactly the arguments within the field widths, the reserved opcodes
among them, and otherwise answer EncodingRangeError and no word. -/
def Obligations.EncodersCheckEveryField : Prop :=
  ∀ op a b r am bm : Int,
    if (0 ≤ op ∧ op < 32) ∧ (0 ≤ a ∧ a < 32) ∧ (0 ≤ b ∧ b < 32) ∧ (0 ≤ r ∧ r < 128) ∧ (am = 0 ∨ am = 1) ∧
        (bm = 0 ∨ bm = 1) then
      (∃ w, encodeTriple op a b r am bm = .ok w) ∧ (∃ w, encodeOffset op a b r am bm = .ok w)
    else
      encodeTriple op a b r am bm = .error .encodingRangeError ∧
      encodeOffset op a b r am bm = .error .encodingRangeError

/-- An instruction some field of which does not fit has no word (30_encoding.md R72). -/
def Obligations.IllFormedInstructionsHaveNoWord : Prop :=
  ∀ i : Instr, i.wellFormed = false → encode i = .error .encodingRangeError

/-- 30_encoding.md R74, R75, R77: a word with a nonzero high byte is refused as non-canonical, a canonical word
whose opcode is 19 or more as unknown, and every other word is a well-formed instruction. -/
def Obligations.DecodeRefusesExactlyTheIllegalWords : Prop :=
  ∀ w : Word,
    if slice w 31 24 ≠ 0 then decode w = .error (.nonCanonicalWord w)
    else if 19 ≤ slice w 23 19 then decode w = .error (.unknownOpcode (slice w 23 19))
    else ∃ i, decode w = .ok i ∧ i.wellFormed = true ∧ i.opcode = slice w 23 19

/-- 30_encoding.md R76: two canonical words of one opcode (bits 31 to 19 are the opcode's number) that agree on the
fields the opcode's handler reads decode alike, so every ignored field is don't-care. -/
def Obligations.IgnoredFieldsAreDontCare : Prop :=
  ∀ w v : Word, slice w 31 19 = slice v 31 19 →
    ((slice w 31 19 = 2 → slice w 17 0 = slice v 17 0 → decode w = decode v) ∧
     (slice w 31 19 = 16 → slice w 17 13 = slice v 17 13 → slice w 6 0 = slice v 6 0 → decode w = decode v) ∧
     (slice w 31 19 = 5 → slice w 18 7 = slice v 18 7 → decode w = decode v) ∧
     (slice w 31 19 = 8 → slice w 18 13 = slice v 18 13 → decode w = decode v) ∧
     (slice w 31 19 = 6 ∨ slice w 31 19 = 7 ∨ slice w 31 19 = 17 ∨ slice w 31 19 = 18 → decode w = decode v))

/-- The worked decodes of 30_encoding.md R80 and the zero word of R79: the whole record of the field decoder (R63),
and what the engine's decode makes of it (40_execution_engine.md R95). An instruction keeps only the fields its handler
reads, which is the model's choice (log 8), so the ignored fields are said of the record. -/
def Obligations.SpecWordsDecodeAsWritten : Prop :=
  decodeFields 0x101280 = ⟨0, 2, .untagged 0, .tagged 5, 0, 0⟩ ∧
  decodeFields 0x04B303 = ⟨0, 0, .tagged 5, .tagged 6, 3, 3⟩ ∧
  decodeFields 0x800080 = ⟨0, 16, .untagged 0, .untagged 1, 0, 0⟩ ∧
  decodeFields 0x300000 = ⟨0, 6, .untagged 0, .untagged 0, 0, 0⟩ ∧
  decodeFields 0x01000000 = ⟨1, 0, .untagged 0, .untagged 0, 0, 0⟩ ∧
  decodeFields 0x980000 = ⟨0, 19, .untagged 0, .untagged 0, 0, 0⟩ ∧
  decodeFields 0 = ⟨0, 0, .untagged 0, .untagged 0, 0, 0⟩ ∧
  decode 0x101280 = .ok (.lw 0 (.tagged 5) 0) ∧ decode 0x04B303 = .ok (.add (.tagged 5) (.tagged 6) 3) ∧
  decode 0x800080 = .ok (.cmp 0 0) ∧ decode 0x300000 = .ok .halt ∧
  decode 0x01000000 = .error (.nonCanonicalWord 0x01000000) ∧ decode 0x980000 = .error (.unknownOpcode 19) ∧
  decode 0 = .ok (.add (.untagged 0) (.untagged 0) 0)

/-! ### The step -/

/-- A running machine whose program counter is in RAM, at a word that decodes to `i`, runs `i` on the state whose
`ir` holds the word; the advance of the program counter is part of `exec` (40_execution_engine.md R93). -/
def Obligations.StepRunsTheDecodedInstruction : Prop :=
  ∀ (s : State) (i : Instr), s.status = .running → s.pc.toNat < s.ramWords →
    decode (readWord s.mem s.pc.toNat) = .ok i → step s = exec i { s with ir := readWord s.mem s.pc.toNat }

/-- An instruction placed by `withFetchWord` is the one the next step runs (the host's load of one word,
70_reset_and_hazards.md R213 and log 7; 20_memory.md R56). -/
def Obligations.PlacedWordRunsNext : Prop :=
  ∀ (s : State) (w : Nat) (i : Instr), s.status = .running → s.pc.toNat < s.ramWords → memoryWf s.mem = true →
    decodeTableWord 32 w = some i →
    step (s.withFetchWord 32 w) = exec i { s.withFetchWord 32 w with ir := BitVec.ofNat 32 w }

/-- 60_exceptions.md R182, 40_execution_engine.md R94: a fetch outside RAM aborts, and `ir` keeps its value. -/
def Obligations.FetchOutsideRamAborts : Prop :=
  ∀ s : State, s.status = .running → s.ramWords ≤ s.pc.toNat →
    step s = .next { s with status := .aborted (.programCounterOutOfRange s.pc) }

/-- 40_execution_engine.md R95: the decode phase checks the high byte first and then the opcode; a fault leaves the
fetched word in `ir`. -/
def Obligations.RefusedWordsAbortAtDecode : Prop :=
  ∀ s : State, s.status = .running → s.pc.toNat < s.ramWords →
    let w := readWord s.mem s.pc.toNat
    (slice w 31 24 ≠ 0 → step s = .next { s with ir := w, status := .aborted (.nonCanonicalWord w) }) ∧
    (slice w 31 24 = 0 → 19 ≤ slice w 23 19 →
      step s = .next { s with ir := w, status := .aborted (.unknownOpcode (slice w 23 19)) })

/-- 40_execution_engine.md R91: `halted` and `aborted` are final. Any number of steps from them changes nothing, a
halted machine runs safely on, the host's `Step` returns the status and changes nothing, and no operation but `Reset`
changes anything. That `step` answers the same state where no step is enabled is log 5, and `⟨s, true⟩`, a session in
which a step was performed, is log 9; both are the model's. -/
def Obligations.TerminalStatesAreFinal : Prop :=
  ∀ (s : State) (k : Nat), s.status ≠ .running →
    Host.Core.run Sys2Proof.core k s = .next s ∧ (s.status = .halted → SafeRun k s) ∧
    hostDo ⟨s, true⟩ .step = (⟨s, true⟩, .status s.status) ∧ ∀ op, op ≠ .reset → (hostDo ⟨s, true⟩ op).1 = ⟨s, true⟩

/-- A run that has met a fatal error stays aborted: there is no return from a fault (60_exceptions.md R191). -/
def Obligations.NoReturnFromAFault : Prop :=
  ∀ (s : State) (k j : Nat), ¬ SafeRun k s → ¬ SafeRun (k + j) s

/-- 40_execution_engine.md R92: a running machine always has a step, whatever the program counter and RAM hold. Where
it is not running no step is enabled (R91), and that the function `step` answers the same state there is the model's
(log 5); a fatal error is a next state too (log 4). -/
def Obligations.EveryStateHasANextState : Prop :=
  ∀ s : State, ∃ t, step s = .next t ∧ (s.status ≠ .running → t = s) ∧ t.ramWords = s.ramWords

/-- 60_exceptions.md R190: a fault is precise. -/
def Obligations.FaultsArePrecise : Prop :=
  ∀ (s t : State) (f : Abort), s.status = .running → step s = .next t → t.status = .aborted f →
    t = { s with ir := if s.pc.toNat < s.ramWords then readWord s.mem s.pc.toNat else s.ir, status := .aborted f }

/-- The handlers raise only the causes 60_exceptions.md R181 gives them. -/
def Obligations.HandlersRaiseOnlyTheirCauses : Prop :=
  ∀ (i : Instr) (s t : State) (f : Abort), s.status = .running → exec i s = .next t → t.status = .aborted f →
    mayRaise i s f

/-- 44_system.md R170, 10_state.md R26: `halted` is reached by executing `halt` and in no other way. -/
def Obligations.OnlyHaltReachesHalted : Prop :=
  ∀ s t : State, s.status = .running → step s = .next t →
    (t.status = .halted ↔ s.pc.toNat < s.ramWords ∧ decode (readWord s.mem s.pc.toNat) = .ok .halt)

/-! ### Arithmetic, logic and compare -/

/-- 41_alu.md R120. -/
def Obligations.AddAddsDereferencedOperands : Prop :=
  ∀ (a b : Operand) (r : Nat) (s : State),
    EncodedAs (.add a b r) 0 .pairDest "add" ∧
    DerefAluRule (.add a b r) a b r s (fun va vb => va + vb)

/-- 41_alu.md R121: a tagged operand is its literal index, and never faults. -/
def Obligations.NandCombinesOperandValues : Prop :=
  ∀ (a b : Operand) (r : Nat) (s : State),
    EncodedAs (.nand a b r) 1 .pairDest "nand" ∧
    (∀ va vb, ValueIs s a va → ValueIs s b vb → r < 8 → WritesRegister (.nand a b r) s r (~~~(va &&& vb))) ∧
    (∀ f, ValueRaises a f → Raises (.nand a b r) s f) ∧
    (∀ va f, ValueIs s a va → ValueRaises b f → Raises (.nand a b r) s f) ∧
    (∀ va vb, ValueIs s a va → ValueIs s b vb → 8 ≤ r → Raises (.nand a b r) s (.registerIndexOutOfRange r))

/-- 41_alu.md R122: the register form and the RAM form. -/
def Obligations.IncAddsOneToRegisterOrRamWord : Prop :=
  ∀ (n : Nat) (s : State),
    (∀ a, EncodedAs (.inc a) 8 .single "inc") ∧
    (∀ v, RegisterIs s n v → WritesRegister (.inc (.untagged n)) s n (v + 1)) ∧
    (8 ≤ n → Raises (.inc (.untagged n)) s (.registerIndexOutOfRange n)) ∧
    (∀ v, WordIs s (zext32 n) v → exec (.inc (.tagged n)) s =
      .next { s with mem := writeWord s.mem (zext32 n).toNat (v + 1), pc := s.pc + 1, suppress := false }) ∧
    (s.ramWords ≤ (zext32 n).toNat → Raises (.inc (.tagged n)) s (.memoryAddressOutOfRange (zext32 n)))

/-- 41_alu.md R123: the unsigned quotient; a zero divisor is checked before the destination. -/
def Obligations.IdivGivesUnsignedQuotient : Prop :=
  ∀ (a b : Operand) (r : Nat) (s : State),
    EncodedAs (.idiv a b r) 9 .pairDest "idiv" ∧
    (∀ va vb, DerefIs s a va → DerefIs s b vb → vb ≠ 0 → r < 8 →
      WritesRegister (.idiv a b r) s r (BitVec.ofNat 32 (va.toNat / vb.toNat))) ∧
    (∀ f, DerefRaises s a f → Raises (.idiv a b r) s f) ∧
    (∀ va f, DerefIs s a va → DerefRaises s b f → Raises (.idiv a b r) s f) ∧
    (∀ va, DerefIs s a va → DerefIs s b 0 → Raises (.idiv a b r) s (.divideByZero s.pc)) ∧
    (∀ va vb, DerefIs s a va → DerefIs s b vb → vb ≠ 0 → 8 ≤ r →
      Raises (.idiv a b r) s (.registerIndexOutOfRange r))

/-- 41_alu.md R124: the low 32 bits of the product. -/
def Obligations.ImulKeepsLowHalfOfProduct : Prop :=
  ∀ (a b : Operand) (r : Nat) (s : State),
    EncodedAs (.imul a b r) 10 .pairDest "imul" ∧
    DerefAluRule (.imul a b r) a b r s (fun va vb => BitVec.ofNat 32 (va.toNat * vb.toNat))

/-- 41_alu.md R125. -/
def Obligations.AndCombinesDereferencedOperands : Prop :=
  ∀ (a b : Operand) (r : Nat) (s : State),
    EncodedAs (.and a b r) 11 .pairDest "and" ∧
    DerefAluRule (.and a b r) a b r s (fun va vb => va &&& vb)

/-- 41_alu.md R126. -/
def Obligations.XorCombinesDereferencedOperands : Prop :=
  ∀ (a b : Operand) (r : Nat) (s : State),
    EncodedAs (.xor a b r) 12 .pairDest "xor" ∧
    DerefAluRule (.xor a b r) a b r s (fun va vb => va ^^^ vb)

/-- 41_alu.md R127: the logical shift; an amount of 32 or more is checked before the destination. -/
def Obligations.ShrShiftsRightLogically : Prop :=
  ∀ (a b : Operand) (r : Nat) (s : State),
    EncodedAs (.shr a b r) 13 .pairDest "shr" ∧
    (∀ va vb, DerefIs s a va → DerefIs s b vb → vb.toNat < 32 → r < 8 →
      WritesRegister (.shr a b r) s r (BitVec.ofNat 32 (va.toNat / 2 ^ vb.toNat))) ∧
    (∀ f, DerefRaises s a f → Raises (.shr a b r) s f) ∧
    (∀ va f, DerefIs s a va → DerefRaises s b f → Raises (.shr a b r) s f) ∧
    (∀ va vb, DerefIs s a va → DerefIs s b vb → 32 ≤ vb.toNat →
      Raises (.shr a b r) s (.shiftAmountOutOfRange vb)) ∧
    (∀ va vb, DerefIs s a va → DerefIs s b vb → vb.toNat < 32 → 8 ≤ r →
      Raises (.shr a b r) s (.registerIndexOutOfRange r))

/-- 41_alu.md R128: the carry is added in, and no flag is written. -/
def Obligations.AdcAddsTheCarryIn : Prop :=
  ∀ (a b : Operand) (r : Nat) (s : State),
    EncodedAs (.adc a b r) 14 .pairDest "adc" ∧
    DerefAluRule (.adc a b r) a b r s (fun va vb => va + vb + (if s.flags.C then 1 else 0))

/-- 41_alu.md R129: the borrow is subtracted, and no flag is written. -/
def Obligations.SbbSubtractsTheBorrowIn : Prop :=
  ∀ (a b : Operand) (r : Nat) (s : State),
    EncodedAs (.sbb a b r) 15 .pairDest "sbb" ∧
    DerefAluRule (.sbb a b r) a b r s (fun va vb => va - vb - (if s.flags.C then 1 else 0))

/-- 41_alu.md R130: the unsigned comparison of two registers writes all three flags and nothing else; `reg_a` is
checked before `reg_r`. -/
def Obligations.CmpSetsAllThreeFlags : Prop :=
  ∀ (a r : Nat) (s : State),
    EncodedAs (.cmp a r) 16 .pair "cmp" ∧
    (∀ va vb, RegisterIs s a va → RegisterIs s r vb →
      exec (.cmp a r) s = .next { s with
        flags := if va.toNat < vb.toNat then ⟨true, true, false⟩
          else if va.toNat = vb.toNat then ⟨false, false, true⟩ else ⟨false, false, false⟩,
        pc := s.pc + 1, suppress := false }) ∧
    (8 ≤ a → Raises (.cmp a r) s (.registerIndexOutOfRange a)) ∧
    (∀ va, RegisterIs s a va → 8 ≤ r → Raises (.cmp a r) s (.registerIndexOutOfRange r))

/-! ### Loads and stores -/

/-- 42_load_store.md R150: the address is checked before the destination. -/
def Obligations.LwLoadsTheAddressedWord : Prop :=
  ∀ (d : Nat) (b : Operand) (offset : Nat) (s : State),
    EncodedAs (.lw d b offset) 2 .pairOffset "lw" ∧
    (∀ base v, ValueIs s b base → WordIs s (base + zext32 offset) v → d < 8 →
      WritesRegister (.lw d b offset) s d v) ∧
    (∀ f, ValueRaises b f → Raises (.lw d b offset) s f) ∧
    (∀ base, ValueIs s b base → s.ramWords ≤ (base + zext32 offset).toNat →
      Raises (.lw d b offset) s (.memoryAddressOutOfRange (base + zext32 offset))) ∧
    (∀ base v, ValueIs s b base → WordIs s (base + zext32 offset) v → 8 ≤ d →
      Raises (.lw d b offset) s (.registerIndexOutOfRange d))

/-- 42_load_store.md R151: one RAM word is written and nothing else but the program counter changes. -/
def Obligations.SwStoresTheValue : Prop :=
  ∀ (a b : Operand) (offset : Nat) (s : State),
    EncodedAs (.sw a b offset) 3 .pairOffset "sw" ∧
    (∀ base v, ValueIs s a base → ValueIs s b v → (base + zext32 offset).toNat < s.ramWords →
      exec (.sw a b offset) s = .next { s with
        mem := writeWord s.mem (base + zext32 offset).toNat v, pc := s.pc + 1, suppress := false }) ∧
    (∀ f, ValueRaises a f → Raises (.sw a b offset) s f) ∧
    (∀ base f, ValueIs s a base → ValueRaises b f → Raises (.sw a b offset) s f) ∧
    (∀ base v, ValueIs s a base → ValueIs s b v → s.ramWords ≤ (base + zext32 offset).toNat →
      Raises (.sw a b offset) s (.memoryAddressOutOfRange (base + zext32 offset)))

/-- 20_memory.md R46, R47: a write replaces one whole word, which every later read of that address gives back, and
leaves every other word alone; the bytes of the word lie least significant first (R43; that RAM is held as bytes is log
2). -/
def Obligations.WriteReplacesOneWholeWord : Prop :=
  ∀ (m : Memory) (a : Nat) (v : Word), memoryWf m = true →
    memoryWf (writeWord m a v) = true ∧ readWord (writeWord m a v) a = v ∧
    (∀ b, b ≠ a → readWord (writeWord m a v) b = readWord m b) ∧
    (∀ i < 4, readByte (writeWord m a v) (4 * a + i) = byteOfWord v i) ∧
    ∀ x, x / 4 ≠ a → readByte (writeWord m a v) x = readByte m x

/-- 20_memory.md R56: a word stored over the next instruction is what the next fetch reads. -/
def Obligations.StoredWordIsFetchedNext : Prop :=
  ∀ (a b : Operand) (offset : Nat) (s : State) (base v : Word), memoryWf s.mem = true → ValueIs s a base →
    ValueIs s b v → base + zext32 offset = s.pc + 1 → (s.pc + 1).toNat < s.ramWords →
    ∃ t, exec (.sw a b offset) s = .next t ∧ fetch t = .ok v

/-! ### Control transfer and system -/

/-- 43_control.md R160: a taken branch goes to `pc + offset + 1`, an untaken one to `pc + 1`; nothing else changes,
and the target is not checked. -/
def Obligations.BeqBranchesForwardWhenEqual : Prop :=
  ∀ (a b : Operand) (offset : Nat) (s : State),
    EncodedAs (.beq a b offset) 4 .pairOffset "beq" ∧
    (∀ v, ValueIs s a v → ValueIs s b v →
      exec (.beq a b offset) s = .next { s with pc := s.pc + zext32 offset + 1, suppress := false }) ∧
    (∀ va vb, ValueIs s a va → ValueIs s b vb → va ≠ vb → OnlyAdvances (.beq a b offset) s) ∧
    (∀ f, ValueRaises a f → Raises (.beq a b offset) s f) ∧
    (∀ va f, ValueIs s a va → ValueRaises b f → Raises (.beq a b offset) s f)

/-- 43_control.md R161: the return address goes to the RAM word the link names, and the program counter to the
target, unchecked; no register is written. A tagged link names a RAM address itself and an untagged one a register
that holds the address, which is what the value rule gives of that operand. -/
def Obligations.JalrStoresLinkAndJumps : Prop :=
  ∀ (a b : Operand) (s : State),
    EncodedAs (.jalr a b) 5 .pair "jalr" ∧
    (∀ link target, ValueIs s a link → ValueIs s b target → link.toNat < s.ramWords →
      exec (.jalr a b) s = .next { s with
        mem := writeWord s.mem link.toNat (s.pc + 1), pc := target, suppress := false }) ∧
    (∀ f, ValueRaises a f → Raises (.jalr a b) s f) ∧
    (∀ link f, ValueIs s a link → ValueRaises b f → Raises (.jalr a b) s f) ∧
    (∀ link target, ValueIs s a link → ValueIs s b target → s.ramWords ≤ link.toNat →
      Raises (.jalr a b) s (.memoryAddressOutOfRange link))

/-- 44_system.md R170: the status becomes halted and the program counter advances; no other instruction reaches
`halted`. -/
def Obligations.HaltStopsTheMachine : Prop :=
  ∀ s : State, EncodedAs .halt 6 .none "halt" ∧
    exec .halt s = .next { s with status := .halted, pc := s.pc + 1, suppress := false } ∧
    ∀ i t, s.status ≠ .halted → exec i s = .next t → t.status = .halted → i = .halt

/-- 44_system.md R171, 43_control.md R168 and R169: `noop`, `jma` and `jmbe` only advance the program counter. -/
def Obligations.NoopJmaAndJmbeOnlyAdvance : Prop :=
  ∀ s : State, (EncodedAs .noop 7 .none "noop" ∧ OnlyAdvances .noop s) ∧
    (EncodedAs .jma 17 .none "jma" ∧ OnlyAdvances .jma s) ∧ (EncodedAs .jmbe 18 .none "jmbe" ∧ OnlyAdvances .jmbe s)

/-! ### Rules of the whole machine -/

/-- 10_state.md R21: no register but the destination changes, for every instruction. -/
def Obligations.OnlyTheDestinationRegisterChanges : Prop :=
  ∀ (i : Instr) (s t : State) (j : Fin 8), exec i s = .next t → destRegister i ≠ some j.val →
    t.regs[j] = s.regs[j]

/-- 20_memory.md R41, R53: no byte outside the word an instruction stores to changes, and no byte at all where the
instruction stores nothing. -/
def Obligations.OnlyTheStoredWordChanges : Prop :=
  ∀ (i : Instr) (s t : State), memoryWf s.mem = true → exec i s = .next t →
    (∀ a x, storeAddress s i = some a → x / 4 ≠ a.toNat → readByte t.mem x = readByte s.mem x) ∧
    (storeAddress s i = none → ∀ x, readByte t.mem x = readByte s.mem x)

/-- 10_state.md R25: no instruction but `cmp` changes a flag; and no instruction changes `ir` or RAM_WORDS. -/
def Obligations.OnlyCmpWritesTheFlags : Prop :=
  ∀ (i : Instr) (s t : State), exec i s = .next t →
    t.ir = s.ir ∧ t.ramWords = s.ramWords ∧ ((∀ a r, i ≠ .cmp a r) → t.flags = s.flags)

/-- 10_state.md R25: no instruction reads `S` or `Z`, and only `adc` and `sbb` read `C`: from two states that differ
in the flags alone, the next states differ in the flags alone, and no new flag depends on an old one: a `cmp` that
completes leaves the same flags from both, and every other instruction leaves the flags it found. -/
def Obligations.OnlyAdcAndSbbReadAFlag : Prop :=
  ∀ (i : Instr) (s t u : State) (f g : Flags),
    (((∃ a b r, i = .adc a b r) ∨ (∃ a b r, i = .sbb a b r)) → f.C = g.C) →
    exec i { s with flags := f } = .next t → exec i { s with flags := g } = .next u →
    { t with flags := g } = { u with flags := g } ∧
    ((∃ a r, i = .cmp a r ∧ a < 8 ∧ r < 8) → t.flags = u.flags) ∧
    ((¬ ∃ a r, i = .cmp a r ∧ a < 8 ∧ r < 8) → t.flags = f ∧ u.flags = g)

/-- 43_control.md R162: a completed instruction changes the program counter in one of three ways. -/
def Obligations.ProgramCounterChangesInThreeWays : Prop :=
  ∀ (i : Instr) (s t : State), s.status = .running → exec i s = .next t → t.Safe →
    t.pc = s.pc + 1 ∨ (∃ a b offset, i = .beq a b offset ∧ t.pc = s.pc + zext32 offset + 1) ∨
    (∃ a b, i = .jalr a b ∧ ValueIs s b t.pc)

/-! ### The host's operations -/

/-- 70_reset_and_hazards.md R213, 40_execution_engine.md R119: an image of the right size puts word `k` of RAM at
bytes `4k` to `4k+3`, least significant first, and changes nothing else; any other ends in its error and changes
nothing. The session and its bit `stepped` are the model's (log 9). -/
def Obligations.LoadImagePlacesEveryWord : Prop :=
  ∀ p : Session, p.stepped = false → memoryWf p.machine.mem = true →
    hostLoadImage p none = (p, .loadError .imageNotFoundError) ∧
    ∀ bytes : List Byte,
      if bytes.length = 4 * p.machine.ramWords then
        ∃ m, hostLoadImage p (some bytes) = (⟨{ p.machine with mem := m }, false⟩, .done) ∧
          ∀ k < p.machine.ramWords, readWord m k =
            wordOfBytes (bytes.getD (4 * k) 0) (bytes.getD (4 * k + 1) 0) (bytes.getD (4 * k + 2) 0)
              (bytes.getD (4 * k + 3) 0)
      else hostLoadImage p (some bytes) = (p, .loadError .invalidImageSizeError)

/-- 40_execution_engine.md R116: registers and flags can be preset before the first `Step`; after it no load and no
preset changes anything, and no operation but `Step` and `Reset` ever changes `pc`, `ir` or the status. The replies that
refuse, for a register index of 8 or more too (R115), are log 16, and the bit `stepped` is log 9; both are the model's.
-/
def Obligations.PresetsEndWithTheFirstStep : Prop :=
  ∀ (p : Session) (n : Nat) (v : Word) (f : Flags) (file : Option (List Byte)),
    (p.stepped = true → hostPresetRegister p n v = (p, .refusedAfterStep) ∧
      hostPresetFlags p f = (p, .refusedAfterStep) ∧ hostLoadImage p file = (p, .refusedAfterStep)) ∧
    (p.stepped = false → hostPresetFlags p f = (⟨{ p.machine with flags := f }, false⟩, .done) ∧
      (∀ h : n < 8, hostPresetRegister p n v =
        (⟨{ p.machine with regs := p.machine.regs.set n v }, false⟩, .done)) ∧
      (8 ≤ n → hostPresetRegister p n v = (p, .refusedRegister n))) ∧
    ∀ op, op ≠ .step → op ≠ .reset → (hostDo p op).1.machine.pc = p.machine.pc ∧
      (hostDo p op).1.machine.ir = p.machine.ir ∧ (hostDo p op).1.machine.status = p.machine.status ∧
      (p.stepped = true → (hostDo p op).1 = p)

/-- 40_execution_engine.md R117: the host's `Step` performs one step and returns the new status; in `halted` and
`aborted` the machine does not change. That it ends the time of presets (R116) in every state is log 9, and that `step`
answers in `halted` and `aborted` is log 5; both are the model's. -/
def Obligations.HostStepPerformsOneStep : Prop :=
  ∀ p : Session, ∃ t, step p.machine = .next t ∧ hostDo p .step = (⟨t, true⟩, .status t.status) ∧
    (p.machine.status ≠ .running → t = p.machine)

/-- 70_reset_and_hazards.md R212: `Reset` leaves every state, the halted and aborted ones too, for the reset state,
keeping nothing of the earlier run; no other operation leaves `halted` or `aborted`. That `Reset` keeps RAM_WORDS is log
1 and log 16, and that it clears the bit `stepped` is log 9; these are the model's. -/
def Obligations.HostResetStartsAfresh : Prop :=
  ∀ p : Session, (hostDo p .reset).1 = Session.boot p.machine.ramWords ∧
    (hostDo p .reset).1.machine.status = .running ∧ (hostDo p .reset).1.stepped = false ∧
    (p.machine.status ≠ .running → ∀ op, op ≠ .reset → (hostDo p op).1.machine.status = p.machine.status)

/-- 40_execution_engine.md R118: `Read` changes nothing and shows every register, flag, RAM word, `pc`, `ir` and the
status. -/
def Obligations.ReadShowsTheWholeState : Prop :=
  ∀ p : Session, ∃ o, hostDo p .read = (p, .observation o) ∧ o.registers = p.machine.regs.toList ∧
    o.flags = p.machine.flags ∧ o.pc = p.machine.pc ∧ o.status = p.machine.status ∧ o.ir = p.machine.ir ∧
    (o.halted = true ↔ p.machine.status = .halted) ∧ o.ram.length = p.machine.ramWords ∧
    ∀ k < p.machine.ramWords, o.ram[k]? = some (readWord p.machine.mem k)

/-! ### The assembler -/

/-- 30_encoding.md R87, R82, R83: where the labels are collected and every line has its word, the image is those words,
one for each line of the normalised source at the line's own address, which is also the value of the line's label, and
zeros up to RAM_WORDS; it has no other image, and none at all where there are more lines than RAM_WORDS. Which of
several errors is reported is log 13. -/
def Obligations.AssembledImageIsPaddedToRam : Prop :=
  ∀ (n : Nat) (text : List Char),
    (∀ labels (ws : List Word), collectLabels 0 [] ((sourceLines text).map takeLabel) = .ok labels →
      assembleLines labels ((sourceLines text).map takeLabel) = .ok ws →
      ws.length = (sourceLines text).length ∧
      (∀ (k : Nat) (line : List Token), (sourceLines text)[k]? = some line →
        ∃ w : Word, ws[k]? = some w ∧ assembleBody labels (takeLabel line).body = .ok w) ∧
      (∀ (k : Nat) (line : List Token) (t : Token), (sourceLines text)[k]? = some line →
        (takeLabel line).label = some t → labels.lookup t = some k) ∧
      (ws.length ≤ n → assemble n text = .ok (ws ++ List.replicate (n - ws.length) 0)) ∧
      (n < ws.length → assemble n text = .error .programTooLargeError)) ∧
    (∀ words, assemble n text = .ok words → words.length = n ∧ (sourceLines text).length ≤ n ∧
      (∃ labels, ∃ ws : List Word, collectLabels 0 [] ((sourceLines text).map takeLabel) = .ok labels ∧
        assembleLines labels ((sourceLines text).map takeLabel) = .ok ws ∧ ws = words.take (sourceLines text).length) ∧
      ∀ k, (sourceLines text).length ≤ k → k < n → words[k]? = some 0) ∧
    (n < (sourceLines text).length → ∃ e, assemble n text = .error e)

/-- 30_encoding.md R82: normalising a normalised text changes nothing (the source's idempotent preprocessing,
95_test_vectors.md 1.3). What counts as white space is the model's (log 14). -/
def Obligations.NormalisationIsIdempotent : Prop :=
  ∀ text : List Char, normalise (normalise text) = normalise text

/-- 30_encoding.md R69, R84, R85: the word of an instruction line, for every mnemonic of the opcode table by its operand
shape, where the arguments are of the right kinds; and what a register and a defined label are as arguments. The exact
form of a token is the model's where the spec leaves it (log 14). -/
def Obligations.InstructionLinesHaveTheWordOfTheirShape : Prop :=
  ∀ (labels : List (Token × Nat)) (x y z : Token) (a b : Operand), operandArg labels x = .ok a →
    operandArg labels y = .ok b →
    (∀ d ∈ opcodeTable,
      (d.shape = .none → assembleBody labels [d.mnemonic.toList] = encodeTriple d.id 0 0 0) ∧
      (d.shape = .single → assembleBody labels [d.mnemonic.toList, x] = encodeTriple d.id a.idx 0 0 a.mode) ∧
      (d.shape = .pair →
        assembleBody labels [d.mnemonic.toList, x, y] = encodeTriple d.id a.idx b.idx 0 a.mode b.mode) ∧
      (∀ r, d.shape = .pairDest → destArg z = .ok r →
        assembleBody labels [d.mnemonic.toList, x, y, z] = encodeTriple d.id a.idx b.idx r a.mode b.mode) ∧
      (∀ n, d.shape = .pairOffset → offsetArg z = .ok n →
        assembleBody labels [d.mnemonic.toList, x, y, z] = encodeOffset d.id a.idx b.idx n a.mode b.mode)) ∧
    (∀ c n, digitValue c = some n → n < 8 → operandArg labels ['r', c] = .ok (.untagged n)) ∧
    ∀ c cs address, labels.lookup ('$' :: c :: cs) = some address →
      operandArg labels ('$' :: c :: cs) = .ok (.tagged address)
end

