-- ==== Sys2Proof/Laws/Assembler.lean ====
section
/-! SUPPORT. One lemma per pass of the assembler that says once what it can do: the words of the lines, the labels, and
the image. -/

namespace Sys2Proof.Machine

/-! ### One instruction line (30_encoding.md R69): what `assembleInstr` answers for each operand shape -/

section Shapes

variable (labels : List (Token × Nat)) (id : Nat) (mnemonic : String) (x y z : Token)

theorem assembleInstr_none : assembleInstr labels ⟨id, .none, mnemonic⟩ [] = encodeTriple id 0 0 0 := rfl

theorem assembleInstr_single : assembleInstr labels ⟨id, .single, mnemonic⟩ [x] =
    (operandArg labels x).bind (fun a => encodeTriple id a.idx 0 0 a.mode) := rfl

theorem assembleInstr_pair : assembleInstr labels ⟨id, .pair, mnemonic⟩ [x, y] =
    (operandArg labels x).bind (fun a => (operandArg labels y).bind (fun b =>
      encodeTriple id a.idx b.idx 0 a.mode b.mode)) := rfl

theorem assembleInstr_pairDest : assembleInstr labels ⟨id, .pairDest, mnemonic⟩ [x, y, z] =
    (operandArg labels x).bind (fun a => (operandArg labels y).bind (fun b => (destArg z).bind (fun r =>
      encodeTriple id a.idx b.idx r a.mode b.mode))) := rfl

theorem assembleInstr_pairOffset : assembleInstr labels ⟨id, .pairOffset, mnemonic⟩ [x, y, z] =
    (operandArg labels x).bind (fun a => (operandArg labels y).bind (fun b => (offsetArg z).bind (fun n =>
      encodeOffset id a.idx b.idx n a.mode b.mode))) := rfl

end Shapes

/-- No mnemonic of the opcode table is a directive, and each is found as its own row (30_encoding.md R67). -/
theorem opcodeTable_mnemonics : opcodeTable.all (fun d =>
    decide (d.mnemonic.toList ≠ ['.', 'f', 'i', 'l', 'l']) && decide (d.mnemonic.toList.head? ≠ some '.') &&
    decide (opcodeTable.find? (fun e => e.mnemonic.toList == d.mnemonic.toList) = some d)) = true := by decide

/-- A line whose first token is a mnemonic is an instruction line of that opcode (30_encoding.md R85). -/
theorem assembleBody_mnemonic (labels : List (Token × Nat)) {d : OpcodeDescriptor} (hd : d ∈ opcodeTable)
    (args : List Token) : assembleBody labels (d.mnemonic.toList :: args) = assembleInstr labels d args := by
  have h := List.all_eq_true.1 opcodeTable_mnemonics d hd
  simp only [Bool.and_eq_true, decide_eq_true_eq] at h
  simp only [assembleBody, if_neg h.1.1, if_neg h.1.2, h.2]

/-! ### Arguments (30_encoding.md R84) -/

/-- A token `r` and a digit below 8 is a register token. -/
theorem registerToken_digit {c : Char} {n : Nat} (h : digitValue c = some n) (hn : n < 8) :
    registerToken ['r', c] = some n := by
  show (digitValue c).filter (fun n => n < Config.nregs) = some n
  rw [h]
  exact if_pos (by simpa using hn)

/-- A label token is no register token. -/
theorem registerToken_label (c : Char) (cs : Token) : registerToken ('$' :: c :: cs) = none := by
  unfold registerToken
  split
  · rename_i h
    simp at h
  · rfl

/-! ### Whole sources -/

/-- Where every line has its word, there are as many words as lines, each at its line's index (30_encoding.md R82). -/
theorem assembleLines_eq_ok {labels : List (Token × Nat)} {lines : List SourceLine} {ws : List Word}
    (h : assembleLines labels lines = .ok ws) :
    ws.length = lines.length ∧
      ∀ (k : Nat) (l : SourceLine), lines[k]? = some l →
        ∃ w : Word, ws[k]? = some w ∧ assembleBody labels l.body = .ok w := by
  induction lines generalizing ws with
  | nil => cases h; simp
  | cons l rest ih =>
    simp only [assembleLines, bind, Except.bind, pure, Except.pure] at h
    cases h1 : assembleBody labels l.body with
    | error e => simp [h1] at h
    | ok w =>
      cases h2 : assembleLines labels rest with
      | error e => simp [h1, h2] at h
      | ok vs =>
        obtain rfl : w :: vs = ws := by simpa [h1, h2] using h
        refine ⟨by simp [(ih h2).1], fun k m hk => ?_⟩
        cases k with
        | zero =>
          obtain rfl : l = m := by simpa using hk
          exact ⟨w, rfl, h1⟩
        | succ k => simpa using (ih h2).2 k m (by simpa using hk)

/-- Where the labels of the lines from address `a` up are collected, a label known before keeps its address, and the
label of line `k` has the address `a + k` (30_encoding.md R83). -/
theorem collectLabels_eq_ok {a : Nat} {known labels : List (Token × Nat)} {lines : List SourceLine}
    (h : collectLabels a known lines = .ok labels) :
    (∀ t n, known.lookup t = some n → labels.lookup t = some n) ∧
      ∀ (k : Nat) (l : SourceLine) (t : Token), lines[k]? = some l → l.label = some t →
        labels.lookup t = some (a + k) := by
  induction lines generalizing a known with
  | nil => cases h; simp
  | cons l rest ih =>
    unfold collectLabels at h
    split at h
    · rename_i hl
      obtain ⟨keep, new⟩ := ih h
      refine ⟨keep, fun k m t hk ht => ?_⟩
      cases k with
      | zero =>
        obtain rfl : l = m := by simpa using hk
        simp [hl] at ht
      | succ k => rw [new k m t (by simpa using hk) ht]; congr 1; omega
    · rename_i u hl
      split at h
      · cases h
      · rename_i fresh
        obtain ⟨keep, new⟩ := ih h
        refine ⟨fun t n ht => keep t n ?_, fun k m t hk ht => ?_⟩
        · have : (t == u) = false := by
            by_contra e
            obtain rfl : t = u := by simpa using e
            simp [fresh] at ht
          simp [List.lookup, this, ht]
        · cases k with
          | zero =>
            obtain rfl : l = m := by simpa using hk
            obtain rfl : u = t := by simpa [hl] using ht
            exact keep u a (by simp [List.lookup])
          | succ k => rw [new k m t (by simpa using hk) ht]; congr 1; omega

/-- What the assembler answers: an image exactly where the labels are collected, every line has its word and the words
fit (30_encoding.md R87). -/
theorem assemble_eq_ok {n : Nat} {text : List Char} {words : List Word} :
    assemble n text = .ok words ↔ ∃ labels ws, collectLabels 0 [] ((sourceLines text).map takeLabel) = .ok labels ∧
      assembleLines labels ((sourceLines text).map takeLabel) = .ok ws ∧ ws.length ≤ n ∧
      words = ws ++ List.replicate (n - ws.length) 0 := by
  simp only [assemble, bind, Except.bind, pure, Except.pure]
  cases h1 : collectLabels 0 [] ((sourceLines text).map takeLabel) with
  | error e => simp
  | ok labels =>
    cases h2 : assembleLines labels ((sourceLines text).map takeLabel) with
    | error e => simp [h2]
    | ok ws =>
      by_cases h : n < ws.length
      · simp [h2, h]
      · simp [h2, h, not_lt.1 h, eq_comm]

/-- Words that do not fit end the assembly in `ProgramTooLargeError` (30_encoding.md R87). -/
theorem assemble_too_large {n : Nat} {text : List Char} {labels : List (Token × Nat)} {ws : List Word}
    (hc : collectLabels 0 [] ((sourceLines text).map takeLabel) = .ok labels)
    (hl : assembleLines labels ((sourceLines text).map takeLabel) = .ok ws) (h : n < ws.length) :
    assemble n text = .error .programTooLargeError := by
  simp [assemble, bind, Except.bind, hc, hl, h]

end Sys2Proof.Machine
end

