-- ==== Sys2Proof/Laws/Encoding.lean ====
section
/-! SUPPORT. The field checks as inequalities, the fields of a packed word, and the parts of an operand. -/

namespace Sys2Proof

/-! ### The checks -/

@[simp] theorem Operand.wellFormed_iff (o : Operand) : o.wellFormed = true ↔ o.idx < 32 := decide_eq_true_iff

@[simp] theorem indexFits_iff (i : Nat) : indexFits i = true ↔ i < 32 := decide_eq_true_iff

@[simp] theorem lowFits_iff (n : Nat) : lowFits n = true ↔ n < 128 := decide_eq_true_iff

/-- What the encoders accept (30_encoding.md R72). -/
theorem encoderAccepts_iff {opcode aIdx bIdx low aMode bMode : Int} :
    encoderAccepts opcode aIdx bIdx low aMode bMode = true ↔
      (0 ≤ opcode ∧ opcode < 32) ∧ (0 ≤ aIdx ∧ aIdx < 32) ∧ (0 ≤ bIdx ∧ bIdx < 32) ∧ (0 ≤ low ∧ low < 128) ∧
        (0 ≤ aMode ∧ aMode < 2) ∧ (0 ≤ bMode ∧ bMode < 2) := by
  simp only [encoderAccepts, Bool.and_eq_true, decide_eq_true_eq, and_assoc]
  norm_num

/-! ### Slices and operands -/

theorem slice_lt (w : Word) (hi lo : Nat) : slice w hi lo < 2 ^ (hi + 1 - lo) := Nat.mod_lt _ (by positivity)

theorem Operand.mode_lt (o : Operand) : o.mode < 2 := by cases o <;> simp [Operand.mode]

@[simp] theorem operandOf_idx (mode idx : Nat) : (operandOf mode idx).idx = idx := by
  unfold operandOf
  split <;> rfl

theorem operandOf_mode {mode : Nat} (idx : Nat) (h : mode < 2) : (operandOf mode idx).mode = mode := by
  unfold operandOf
  split <;> simp only [Operand.mode] <;> omega

@[simp] theorem operandOf_parts (o : Operand) : operandOf o.mode o.idx = o := by cases o <;> rfl

/-! ### Packing -/

section Packed

variable {opcode aIdx bIdx low aMode bMode : Nat} (ho : opcode < 32) (ha : aIdx < 32) (hb : bIdx < 32)
  (hl : low < 128) (hm : aMode < 2) (hn : bMode < 2)

include ho ha hb hl hm hn

/-- The packed word as a number: no field overlaps another. -/
theorem packFields_toNat : (packFields opcode aIdx bIdx low aMode bMode).toNat =
    opcode * 2 ^ 19 + aMode * 2 ^ 18 + aIdx * 2 ^ 13 + bMode * 2 ^ 12 + bIdx * 2 ^ 7 + low := by
  rw [packFields, BitVec.toNat_ofNat]
  omega

/-- The fields of a packed word are the fields packed (30_encoding.md R63, R70). -/
theorem decodeFields_packFields : decodeFields (packFields opcode aIdx bIdx low aMode bMode) =
    ⟨0, opcode, operandOf aMode aIdx, operandOf bMode bIdx, low, low⟩ := by
  have e := packFields_toNat ho ha hb hl hm hn
  have f : ∀ hi lo n, (packFields opcode aIdx bIdx low aMode bMode).toNat / 2 ^ lo % 2 ^ (hi + 1 - lo) = n →
      slice (packFields opcode aIdx bIdx low aMode bMode) hi lo = n := fun _ _ _ h => h
  simp only [decodeFields, f 31 24 0 (by rw [e]; omega), f 23 19 opcode (by rw [e]; omega),
    f 18 18 aMode (by rw [e]; omega), f 17 13 aIdx (by rw [e]; omega), f 12 12 bMode (by rw [e]; omega),
    f 11 7 bIdx (by rw [e]; omega), f 6 0 low (by rw [e]; omega)]

/-- A packed word decodes by its packed fields. -/
theorem decode_packFields : decode (packFields opcode aIdx bIdx low aMode bMode) =
    instrOfFields ⟨0, opcode, operandOf aMode aIdx, operandOf bMode bIdx, low, low⟩ := by
  rw [decode, decodeFields_packFields ho ha hb hl hm hn, if_neg (by simp)]

theorem encodeTriple_natCast : encodeTriple opcode aIdx bIdx low aMode bMode =
    .ok (packFields opcode aIdx bIdx low aMode bMode) := by
  rw [encodeTriple, if_pos (encoderAccepts_iff.2 (by omega))]
  simp only [Int.toNat_natCast]

theorem encodeOffset_natCast : encodeOffset opcode aIdx bIdx low aMode bMode =
    .ok (packFields opcode aIdx bIdx low aMode bMode) := by
  rw [encodeOffset, if_pos (encoderAccepts_iff.2 (by omega))]
  simp only [Int.toNat_natCast]

end Packed

/-! ### The words the encoders make -/

/-- A word the encoder makes is canonical and carries the opcode it was given (30_encoding.md R62, R73). -/
theorem slice_of_encodeTriple {opcode aIdx bIdx low aMode bMode : Int} {w : Word}
    (h : encodeTriple opcode aIdx bIdx low aMode bMode = .ok w) :
    slice w 31 24 = 0 ∧ (slice w 23 19 : Int) = opcode := by
  unfold encodeTriple at h
  split at h
  · rename_i accepted
    obtain ⟨ho, ha, hb, hl, hm, hn⟩ := encoderAccepts_iff.1 accepted
    cases h
    have d := decodeFields_packFields (opcode := opcode.toNat) (aIdx := aIdx.toNat) (bIdx := bIdx.toNat)
      (low := low.toNat) (aMode := aMode.toNat) (bMode := bMode.toNat) (by omega) (by omega) (by omega) (by omega)
      (by omega) (by omega)
    exact ⟨congrArg Fields.high d, (congrArg (fun f => (f.opcode : Int)) d).trans (Int.toNat_of_nonneg ho.1)⟩
  · cases h

/-- The two encoders make the same words (30_encoding.md R71). -/
theorem encodeOffset_eq (opcode aIdx bIdx offset aMode bMode : Int) :
    encodeOffset opcode aIdx bIdx offset aMode bMode = encodeTriple opcode aIdx bIdx offset aMode bMode := rfl

/-- A word of an instruction is canonical and carries the instruction's opcode (30_encoding.md R67). -/
theorem slice_of_encode {i : Instr} {w : Word} (h : encode i = .ok w) :
    slice w 31 24 = 0 ∧ slice w 23 19 = i.opcode := by
  suffices slice w 31 24 = 0 ∧ (slice w 23 19 : Int) = (i.opcode : Int) from ⟨this.1, by omega⟩
  cases i <;> exact slice_of_encodeTriple h

/-! ### The opcode of a decoded record -/

/-- A record whose opcode is 19 or more names no instruction (30_encoding.md R74). -/
theorem instrOfFields_reserved {d : Fields} (h : 19 ≤ d.opcode) :
    instrOfFields d = .error (.unknownOpcode d.opcode) := by
  obtain ⟨high, opcode, regA, regB, regR, operand⟩ := d
  unfold instrOfFields
  simp only at h ⊢
  split <;> first | omega | rfl

end Sys2Proof
end

