-- ==== Sys2Proof/Laws/Memory.lean ====
section
/-! SUPPORT. The laws of RAM: bytes and words of a word, read after write, and the canonical form every operation
keeps. -/

namespace Sys2Proof

/-! ### Bytes of a word -/

theorem byteOfWord_toNat (w : Word) (i : Nat) : (byteOfWord w i).toNat = w.toNat / 2 ^ (8 * i) % 2 ^ 8 := by
  simp [byteOfWord]

/-- A word is its four bytes, least significant first. -/
theorem wordOfBytes_byteOfWord (w : Word) :
    wordOfBytes (byteOfWord w 0) (byteOfWord w 1) (byteOfWord w 2) (byteOfWord w 3) = w := by
  apply BitVec.eq_of_toNat_eq
  have h := w.isLt
  simp only [wordOfBytes, byteOfWord_toNat, BitVec.toNat_ofNat]
  omega

theorem byteOfWord_wordOfBytes_zero (b0 b1 b2 b3 : Byte) : byteOfWord (wordOfBytes b0 b1 b2 b3) 0 = b0 := by
  apply BitVec.eq_of_toNat_eq
  have h0 := b0.isLt; have h1 := b1.isLt; have h2 := b2.isLt; have h3 := b3.isLt
  simp only [wordOfBytes, byteOfWord_toNat, BitVec.toNat_ofNat]
  omega

theorem byteOfWord_wordOfBytes_one (b0 b1 b2 b3 : Byte) : byteOfWord (wordOfBytes b0 b1 b2 b3) 1 = b1 := by
  apply BitVec.eq_of_toNat_eq
  have h0 := b0.isLt; have h1 := b1.isLt; have h2 := b2.isLt; have h3 := b3.isLt
  simp only [wordOfBytes, byteOfWord_toNat, BitVec.toNat_ofNat]
  omega

theorem byteOfWord_wordOfBytes_two (b0 b1 b2 b3 : Byte) : byteOfWord (wordOfBytes b0 b1 b2 b3) 2 = b2 := by
  apply BitVec.eq_of_toNat_eq
  have h0 := b0.isLt; have h1 := b1.isLt; have h2 := b2.isLt; have h3 := b3.isLt
  simp only [wordOfBytes, byteOfWord_toNat, BitVec.toNat_ofNat]
  omega

theorem byteOfWord_wordOfBytes_three (b0 b1 b2 b3 : Byte) : byteOfWord (wordOfBytes b0 b1 b2 b3) 3 = b3 := by
  apply BitVec.eq_of_toNat_eq
  have h0 := b0.isLt; have h1 := b1.isLt; have h2 := b2.isLt; have h3 := b3.isLt
  simp only [wordOfBytes, byteOfWord_toNat, BitVec.toNat_ofNat]
  omega

end Sys2Proof

namespace Sys2Proof.Machine

/-! ### The canonical form -/

theorem memoryWf_nil : memoryWf [] = true := rfl

theorem memoryWf_cons (k : Nat) (b : Byte) (rest : Memory) :
    memoryWf ((k, b) :: rest) = true ↔ b ≠ unlistedByte ∧ (∀ c ∈ rest, k < c.1) ∧ memoryWf rest = true := by
  simp [memoryWf, and_assoc]

theorem memoryWf_consByte {a : Nat} {v : Byte} {rest : Memory} (h : memoryWf rest = true)
    (low : ∀ c ∈ rest, a < c.1) : memoryWf (consByte a v rest) = true := by
  unfold consByte
  split
  · exact h
  · exact (memoryWf_cons a v rest).2 ⟨‹_›, low, h⟩

/-- Every entry a byte write leaves was there before, or is the byte written. -/
theorem mem_writeByte {m : Memory} {a : Nat} {v : Byte} {c : Host.Cell} (h : c ∈ writeByte m a v) :
    c ∈ m ∨ c = (a, v) := by
  induction m with
  | nil => unfold writeByte consByte at h; split at h <;> simp_all
  | cons hd rest ih =>
    obtain ⟨k, b⟩ := hd
    unfold writeByte consByte at h
    split_ifs at h <;> simp only [List.mem_cons] at h ⊢ <;> tauto

/-- A byte write keeps the canonical form. -/
theorem memoryWf_writeByte {m : Memory} (a : Nat) (v : Byte) (h : memoryWf m = true) :
    memoryWf (writeByte m a v) = true := by
  induction m with
  | nil => exact memoryWf_consByte h (by simp)
  | cons hd rest ih =>
    obtain ⟨k, b⟩ := hd
    obtain ⟨hb, hk, hr⟩ := (memoryWf_cons k b rest).1 h
    unfold writeByte
    split_ifs with h1 h2
    · refine memoryWf_consByte h (fun c hc => ?_)
      rcases List.mem_cons.1 hc with rfl | hc
      · exact h1
      · exact h1.trans (hk c hc)
    · exact memoryWf_consByte hr (h2 ▸ hk)
    · refine (memoryWf_cons k b _).2 ⟨hb, fun c hc => ?_, ih hr⟩
      rcases mem_writeByte hc with hc | rfl
      · exact hk c hc
      · exact lt_of_le_of_ne (not_lt.1 h1) (Ne.symm h2)

/-- A word write keeps the canonical form. -/
theorem memoryWf_writeWord {m : Memory} (a : Nat) (v : Word) (h : memoryWf m = true) :
    memoryWf (writeWord m a v) = true :=
  memoryWf_writeByte _ _ (memoryWf_writeByte _ _ (memoryWf_writeByte _ _ (memoryWf_writeByte _ _ h)))

/-- A write of a byte sequence keeps the canonical form. -/
theorem memoryWf_writeBytes {m : Memory} (a : Nat) (bs : List Byte) (h : memoryWf m = true) :
    memoryWf (writeBytes m a bs) = true := by
  induction bs generalizing m a with
  | nil => exact h
  | cons b rest ih => exact ih (a + 1) (memoryWf_writeByte a b h)

/-! ### Reading a byte -/

theorem readByte_cons (k : Nat) (b : Byte) (rest : Memory) (a : Nat) :
    readByte ((k, b) :: rest) a = if k = a then b else readByte rest a := rfl

/-- A byte below every entry is unlisted. -/
theorem readByte_below {m : Memory} {a : Nat} (h : ∀ c ∈ m, a < c.1) : readByte m a = unlistedByte := by
  induction m with
  | nil => rfl
  | cons hd rest ih =>
    obtain ⟨k, b⟩ := hd
    have hk : a < k := h (k, b) (by simp)
    rw [readByte_cons, if_neg (by omega)]
    exact ih (fun c hc => h c (by simp [hc]))

theorem readByte_consByte {a : Nat} {v : Byte} {rest : Memory} (x : Nat) (h : readByte rest a = unlistedByte) :
    readByte (consByte a v rest) x = if x = a then v else readByte rest x := by
  unfold consByte
  split_ifs with h1 h2 h2
  · rw [h2, h, h1]
  · rfl
  · rw [readByte_cons, if_pos h2.symm]
  · rw [readByte_cons, if_neg (Ne.symm h2)]

/-- Read after write, for bytes: the byte written reads as written, every other byte as before. -/
theorem readByte_writeByte {m : Memory} (h : memoryWf m = true) (a : Nat) (v : Byte) (x : Nat) :
    readByte (writeByte m a v) x = if x = a then v else readByte m x := by
  induction m with
  | nil => exact readByte_consByte x rfl
  | cons hd rest ih =>
    obtain ⟨k, b⟩ := hd
    obtain ⟨-, hk, hr⟩ := (memoryWf_cons k b rest).1 h
    unfold writeByte
    by_cases h1 : a < k
    · rw [if_pos h1]
      refine readByte_consByte x (readByte_below (fun c hc => ?_))
      rcases List.mem_cons.1 hc with rfl | hc
      · exact h1
      · exact h1.trans (hk c hc)
    · rw [if_neg h1]
      by_cases h2 : a = k
      · subst h2
        rw [if_pos rfl, readByte_consByte x (readByte_below hk), readByte_cons]
        by_cases h3 : x = a
        · rw [if_pos h3, if_pos h3]
        · rw [if_neg h3, if_neg h3, if_neg (Ne.symm h3)]
      · rw [if_neg h2, readByte_cons, readByte_cons, ih hr]
        by_cases h3 : k = x
        · rw [if_pos h3, if_pos h3, if_neg (h3 ▸ Ne.symm h2)]
        · rw [if_neg h3, if_neg h3]

/-- The bytes after a word write: those of the word written, and every other byte as before. -/
theorem readByte_writeWord {m : Memory} (h : memoryWf m = true) (a : Nat) (v : Word) (x : Nat) :
    readByte (writeWord m a v) x = if x / 4 = a then byteOfWord v (x % 4) else readByte m x := by
  have h0 := memoryWf_writeByte (4 * a) (byteOfWord v 0) h
  have h1 := memoryWf_writeByte (4 * a + 1) (byteOfWord v 1) h0
  have h2 := memoryWf_writeByte (4 * a + 2) (byteOfWord v 2) h1
  rw [writeWord, readByte_writeByte h2, readByte_writeByte h1, readByte_writeByte h0, readByte_writeByte h]
  by_cases e : x / 4 = a
  · rw [if_pos e]
    have hx : x = 4 * a + x % 4 := by omega
    have hr : x % 4 = 0 ∨ x % 4 = 1 ∨ x % 4 = 2 ∨ x % 4 = 3 := by omega
    rcases hr with r | r | r | r <;> rw [r] at hx <;> rw [r, hx] <;> simp
  · rw [if_neg e, if_neg (by omega), if_neg (by omega), if_neg (by omega), if_neg (by omega)]

/-- A byte outside the word written reads as before. -/
theorem readByte_writeWord_other {m : Memory} (h : memoryWf m = true) {a : Nat} (v : Word) {x : Nat}
    (hx : x / 4 ≠ a) : readByte (writeWord m a v) x = readByte m x := by
  rw [readByte_writeWord h, if_neg hx]

/-- Read after write, for words (20_memory.md R52). -/
theorem readWord_writeWord {m : Memory} (h : memoryWf m = true) (a : Nat) (v : Word) (x : Nat) :
    readWord (writeWord m a v) x = if x = a then v else readWord m x := by
  have d : ∀ i, i < 4 → (4 * x + i) / 4 = x ∧ (4 * x + i) % 4 = i := fun i hi => by omega
  have q0 : 4 * x / 4 = x ∧ 4 * x % 4 = 0 := d 0 (by omega)
  unfold readWord
  simp only [readByte_writeWord h, q0, d 1 (by omega), d 2 (by omega), d 3 (by omega)]
  by_cases e : x = a
  · simp only [if_pos e, wordOfBytes_byteOfWord]
  · simp only [if_neg e]

/-- Every entry a word write leaves was there before, or lies in the word written. -/
theorem mem_writeWord {m : Memory} {a : Nat} {v : Word} {c : Host.Cell} (h : c ∈ writeWord m a v) :
    c ∈ m ∨ c.1 / 4 = a := by
  unfold writeWord at h
  rcases mem_writeByte h with h | rfl
  · rcases mem_writeByte h with h | rfl
    · rcases mem_writeByte h with h | rfl
      · rcases mem_writeByte h with h | rfl
        · exact .inl h
        · exact .inr (by simp)
      · exact .inr (by simp only; omega)
    · exact .inr (by simp only; omega)
  · exact .inr (by simp only; omega)

/-- The bytes after a write of a byte sequence. -/
theorem readByte_writeBytes {m : Memory} (h : memoryWf m = true) (a : Nat) (bs : List Byte) (x : Nat) :
    readByte (writeBytes m a bs) x = if a ≤ x then (bs[x - a]?).getD (readByte m x) else readByte m x := by
  induction bs generalizing m a with
  | nil => simp [writeBytes]
  | cons b rest ih =>
    rw [writeBytes, ih (memoryWf_writeByte a b h), readByte_writeByte h]
    rcases Nat.lt_trichotomy x a with e | rfl | e
    · rw [if_neg (by omega), if_neg (by omega), if_neg (by omega)]
    · simp
    · have hx : x - a = (x - (a + 1)) + 1 := by omega
      rw [if_pos (by omega), if_neg (by omega), if_pos (by omega), hx, List.getElem?_cons_succ]

/-! ### Equal memories are equal data -/

/-- A listed byte is never what an unlisted byte reads as. -/
theorem readByte_head {k : Nat} {b : Byte} {rest : Memory} (h : memoryWf ((k, b) :: rest) = true) :
    readByte ((k, b) :: rest) k ≠ unlistedByte := by
  rw [readByte_cons, if_pos rfl]
  exact ((memoryWf_cons k b rest).1 h).1

/-- The canonical form is canonical: two canonical memories that read alike are one list. -/
theorem memory_ext {m n : Memory} (hm : memoryWf m = true) (hn : memoryWf n = true)
    (h : ∀ x, readByte m x = readByte n x) : m = n := by
  induction m generalizing n with
  | nil =>
    cases n with
    | nil => rfl
    | cons e rest => exact absurd (h e.1).symm (readByte_head hn)
  | cons d rest ih =>
    cases n with
    | nil => exact absurd (h d.1) (readByte_head hm)
    | cons e rest' =>
      obtain ⟨k, b⟩ := d
      obtain ⟨l, c⟩ := e
      obtain ⟨hb, hk, hr⟩ := (memoryWf_cons k b rest).1 hm
      obtain ⟨hc, hl, hr'⟩ := (memoryWf_cons l c rest').1 hn
      have hkl : k = l := by
        rcases Nat.lt_trichotomy k l with e | e | e
        · refine absurd (h k) ?_
          rw [readByte_below (m := (l, c) :: rest') (fun d hd => ?_)]
          · exact readByte_head hm
          · rcases List.mem_cons.1 hd with rfl | hd
            · exact e
            · exact e.trans (hl d hd)
        · exact e
        · refine absurd (h l).symm ?_
          rw [readByte_below (m := (k, b) :: rest) (fun d hd => ?_)]
          · exact readByte_head hn
          · rcases List.mem_cons.1 hd with rfl | hd
            · exact e
            · exact e.trans (hk d hd)
      subst hkl
      have hbc : b = c := by simpa [readByte_cons] using h k
      subst hbc
      congr 1
      refine ih hr hr' (fun x => ?_)
      by_cases e : k = x
      · subst e
        rw [readByte_below hk, readByte_below hl]
      · simpa only [readByte_cons, if_neg e] using h x

end Sys2Proof.Machine
end

