-- ==== Sys2Proof/Laws/State.lean ====
section
/-! SUPPORT. One lemma per field per update of the state, so that no proof unfolds a record update. -/

namespace Sys2Proof.Machine

variable (s : State)

/-! ### `setReg` -/

@[simp] theorem State.setReg_regs (i : Fin 8) (v : Word) : (s.setReg i v).regs = s.regs.set i v := rfl
@[simp] theorem State.setReg_pc (i : Fin 8) (v : Word) : (s.setReg i v).pc = s.pc := rfl
@[simp] theorem State.setReg_flags (i : Fin 8) (v : Word) : (s.setReg i v).flags = s.flags := rfl
@[simp] theorem State.setReg_ir (i : Fin 8) (v : Word) : (s.setReg i v).ir = s.ir := rfl
@[simp] theorem State.setReg_suppress (i : Fin 8) (v : Word) : (s.setReg i v).suppress = s.suppress := rfl
@[simp] theorem State.setReg_status (i : Fin 8) (v : Word) : (s.setReg i v).status = s.status := rfl
@[simp] theorem State.setReg_mem (i : Fin 8) (v : Word) : (s.setReg i v).mem = s.mem := rfl
@[simp] theorem State.setReg_ramWords (i : Fin 8) (v : Word) : (s.setReg i v).ramWords = s.ramWords := rfl

/-! ### `setPc` -/

@[simp] theorem State.setPc_regs (v : Word) : (s.setPc v).regs = s.regs := rfl
@[simp] theorem State.setPc_pc (v : Word) : (s.setPc v).pc = v := rfl
@[simp] theorem State.setPc_flags (v : Word) : (s.setPc v).flags = s.flags := rfl
@[simp] theorem State.setPc_ir (v : Word) : (s.setPc v).ir = s.ir := rfl
@[simp] theorem State.setPc_suppress (v : Word) : (s.setPc v).suppress = s.suppress := rfl
@[simp] theorem State.setPc_status (v : Word) : (s.setPc v).status = s.status := rfl
@[simp] theorem State.setPc_mem (v : Word) : (s.setPc v).mem = s.mem := rfl
@[simp] theorem State.setPc_ramWords (v : Word) : (s.setPc v).ramWords = s.ramWords := rfl

/-! ### `setFlags` -/

@[simp] theorem State.setFlags_regs (f : Flags) : (s.setFlags f).regs = s.regs := rfl
@[simp] theorem State.setFlags_pc (f : Flags) : (s.setFlags f).pc = s.pc := rfl
@[simp] theorem State.setFlags_flags (f : Flags) : (s.setFlags f).flags = f := rfl
@[simp] theorem State.setFlags_ir (f : Flags) : (s.setFlags f).ir = s.ir := rfl
@[simp] theorem State.setFlags_suppress (f : Flags) : (s.setFlags f).suppress = s.suppress := rfl
@[simp] theorem State.setFlags_status (f : Flags) : (s.setFlags f).status = s.status := rfl
@[simp] theorem State.setFlags_mem (f : Flags) : (s.setFlags f).mem = s.mem := rfl
@[simp] theorem State.setFlags_ramWords (f : Flags) : (s.setFlags f).ramWords = s.ramWords := rfl

/-! ### `setIr` -/

@[simp] theorem State.setIr_regs (w : Word) : (s.setIr w).regs = s.regs := rfl
@[simp] theorem State.setIr_pc (w : Word) : (s.setIr w).pc = s.pc := rfl
@[simp] theorem State.setIr_flags (w : Word) : (s.setIr w).flags = s.flags := rfl
@[simp] theorem State.setIr_ir (w : Word) : (s.setIr w).ir = w := rfl
@[simp] theorem State.setIr_suppress (w : Word) : (s.setIr w).suppress = s.suppress := rfl
@[simp] theorem State.setIr_status (w : Word) : (s.setIr w).status = s.status := rfl
@[simp] theorem State.setIr_mem (w : Word) : (s.setIr w).mem = s.mem := rfl
@[simp] theorem State.setIr_ramWords (w : Word) : (s.setIr w).ramWords = s.ramWords := rfl

/-! ### `setSuppress` -/

@[simp] theorem State.setSuppress_regs (b : Bool) : (s.setSuppress b).regs = s.regs := rfl
@[simp] theorem State.setSuppress_pc (b : Bool) : (s.setSuppress b).pc = s.pc := rfl
@[simp] theorem State.setSuppress_flags (b : Bool) : (s.setSuppress b).flags = s.flags := rfl
@[simp] theorem State.setSuppress_ir (b : Bool) : (s.setSuppress b).ir = s.ir := rfl
@[simp] theorem State.setSuppress_suppress (b : Bool) : (s.setSuppress b).suppress = b := rfl
@[simp] theorem State.setSuppress_status (b : Bool) : (s.setSuppress b).status = s.status := rfl
@[simp] theorem State.setSuppress_mem (b : Bool) : (s.setSuppress b).mem = s.mem := rfl
@[simp] theorem State.setSuppress_ramWords (b : Bool) : (s.setSuppress b).ramWords = s.ramWords := rfl

/-! ### `setStatus` -/

@[simp] theorem State.setStatus_regs (t : RunStatus) : (s.setStatus t).regs = s.regs := rfl
@[simp] theorem State.setStatus_pc (t : RunStatus) : (s.setStatus t).pc = s.pc := rfl
@[simp] theorem State.setStatus_flags (t : RunStatus) : (s.setStatus t).flags = s.flags := rfl
@[simp] theorem State.setStatus_ir (t : RunStatus) : (s.setStatus t).ir = s.ir := rfl
@[simp] theorem State.setStatus_suppress (t : RunStatus) : (s.setStatus t).suppress = s.suppress := rfl
@[simp] theorem State.setStatus_status (t : RunStatus) : (s.setStatus t).status = t := rfl
@[simp] theorem State.setStatus_mem (t : RunStatus) : (s.setStatus t).mem = s.mem := rfl
@[simp] theorem State.setStatus_ramWords (t : RunStatus) : (s.setStatus t).ramWords = s.ramWords := rfl

/-! ### `setMem` -/

@[simp] theorem State.setMem_regs (m : Memory) : (s.setMem m).regs = s.regs := rfl
@[simp] theorem State.setMem_pc (m : Memory) : (s.setMem m).pc = s.pc := rfl
@[simp] theorem State.setMem_flags (m : Memory) : (s.setMem m).flags = s.flags := rfl
@[simp] theorem State.setMem_ir (m : Memory) : (s.setMem m).ir = s.ir := rfl
@[simp] theorem State.setMem_suppress (m : Memory) : (s.setMem m).suppress = s.suppress := rfl
@[simp] theorem State.setMem_status (m : Memory) : (s.setMem m).status = s.status := rfl
@[simp] theorem State.setMem_mem (m : Memory) : (s.setMem m).mem = m := rfl
@[simp] theorem State.setMem_ramWords (m : Memory) : (s.setMem m).ramWords = s.ramWords := rfl

/-! ### The reset state (10_state.md R34) -/

@[simp] theorem State.resetWith_regs (n : Nat) : (State.resetWith n).regs = Vector.replicate 8 0 := rfl
@[simp] theorem State.resetWith_pc (n : Nat) : (State.resetWith n).pc = 0 := rfl
@[simp] theorem State.resetWith_flags (n : Nat) : (State.resetWith n).flags = ⟨false, false, false⟩ := rfl
@[simp] theorem State.resetWith_ir (n : Nat) : (State.resetWith n).ir = 0 := rfl
@[simp] theorem State.resetWith_suppress (n : Nat) : (State.resetWith n).suppress = false := rfl
@[simp] theorem State.resetWith_status (n : Nat) : (State.resetWith n).status = .running := rfl
@[simp] theorem State.resetWith_mem (n : Nat) : (State.resetWith n).mem = [] := rfl
@[simp] theorem State.resetWith_ramWords (n : Nat) : (State.resetWith n).ramWords = n := rfl

/-! ### Fault entry changes the status alone (60_exceptions.md R190) -/

@[simp] theorem raise_regs (f : Abort) : (raise s f).regs = s.regs := rfl
@[simp] theorem raise_pc (f : Abort) : (raise s f).pc = s.pc := rfl
@[simp] theorem raise_flags (f : Abort) : (raise s f).flags = s.flags := rfl
@[simp] theorem raise_ir (f : Abort) : (raise s f).ir = s.ir := rfl
@[simp] theorem raise_suppress (f : Abort) : (raise s f).suppress = s.suppress := rfl
@[simp] theorem raise_status (f : Abort) : (raise s f).status = .aborted f := rfl
@[simp] theorem raise_mem (f : Abort) : (raise s f).mem = s.mem := rfl
@[simp] theorem raise_ramWords (f : Abort) : (raise s f).ramWords = s.ramWords := rfl

/-! ### Registers by index -/

theorem State.setReg_same (i : Fin 8) (v : Word) : (s.setReg i v).regs[i] = v := by
  simp

theorem State.setReg_other (i j : Fin 8) (v : Word) (h : i ≠ j) : (s.setReg i v).regs[j] = s.regs[j] := by
  simp only [State.setReg_regs, Fin.getElem_fin]
  exact Vector.getElem_set_ne _ _ (fun e => h (Fin.ext e))

end Sys2Proof.Machine
end

