-- ==== Sys2Proof/Laws/Ops.lean ====
section
/-! SUPPORT. One lemma per shared operation that says once what it can do: the checks, the operand resolutions, a
handler's effects, the end of dispatch, and the step. -/

namespace Sys2Proof.Machine

/-! ### Pairing two results -/

theorem bind_eq_ok {α β : Type} {x : Except Abort α} {f : α → Except Abort β} {b : β} :
    (x >>= f) = .ok b ↔ ∃ a, x = .ok a ∧ f a = .ok b := by
  cases x <;> simp [bind, Except.bind]

theorem bind_eq_error {α β : Type} {x : Except Abort α} {f : α → Except Abort β} {e : Abort} :
    (x >>= f) = .error e ↔ x = .error e ∨ ∃ a, x = .ok a ∧ f a = .error e := by
  cases x <;> simp [bind, Except.bind]

theorem map_eq_ok {α β : Type} {x : Except Abort α} {f : α → β} {b : β} :
    x.map f = .ok b ↔ ∃ a, x = .ok a ∧ f a = b := by
  cases x <;> simp [Except.map]

theorem map_eq_error {α β : Type} {x : Except Abort α} {f : α → β} {e : Abort} :
    x.map f = .error e ↔ x = .error e := by
  cases x <;> simp [Except.map]

theorem inOrder_eq_ok {a b : Except Abort Word} {v : Word × Word} :
    inOrder a b = .ok v ↔ a = .ok v.1 ∧ b = .ok v.2 := by
  obtain ⟨v, w⟩ := v
  cases a <;> cases b <;> simp [inOrder, bind, Except.bind, pure, Except.pure]

theorem inOrder_eq_error {a b : Except Abort Word} {f : Abort} :
    inOrder a b = .error f ↔ a = .error f ∨ ∃ v, a = .ok v ∧ b = .error f := by
  cases a <;> cases b <;> simp [inOrder, bind, Except.bind, pure, Except.pure]

/-! ### The checks -/

theorem checkRegister_eq_ok {i : Nat} {j : Fin 8} : checkRegister i = .ok j ↔ i = j.val := by
  unfold checkRegister
  split
  · simp only [Except.ok.injEq, Fin.ext_iff]
  · simp only [reduceCtorEq, false_iff]
    rename_i h
    exact fun e => h (e ▸ j.isLt)

theorem checkRegister_eq_error {i : Nat} {f : Abort} :
    checkRegister i = .error f ↔ 8 ≤ i ∧ f = .registerIndexOutOfRange i := by
  unfold checkRegister
  split
  · simp only [reduceCtorEq, false_iff, not_and]
    exact fun h => absurd h (by simpa using ‹i < Config.nregs›)
  · simp only [Except.error.injEq]
    rename_i h
    exact ⟨fun e => ⟨not_lt.1 h, e.symm⟩, fun e => e.2.symm⟩

theorem readRegister_eq_ok {s : State} {i : Nat} {v : Word} : readRegister s i = .ok v ↔ RegisterIs s i v := by
  rw [readRegister, map_eq_ok]
  constructor
  · rintro ⟨j, hj, rfl⟩
    obtain rfl := checkRegister_eq_ok.1 hj
    exact ⟨j.isLt, rfl⟩
  · rintro ⟨h, rfl⟩
    exact ⟨⟨i, h⟩, checkRegister_eq_ok.2 rfl, rfl⟩

theorem readRegister_eq_error {s : State} {i : Nat} {f : Abort} :
    readRegister s i = .error f ↔ 8 ≤ i ∧ f = .registerIndexOutOfRange i := by
  rw [readRegister, map_eq_error, checkRegister_eq_error]

theorem checkAddress_eq_ok {s : State} {a : Word} {u : Unit} :
    checkAddress s a = .ok u ↔ a.toNat < s.ramWords := by
  unfold checkAddress
  split <;> simp_all

theorem checkAddress_eq_error {s : State} {a : Word} {f : Abort} :
    checkAddress s a = .error f ↔ s.ramWords ≤ a.toNat ∧ f = .memoryAddressOutOfRange a := by
  unfold checkAddress
  split
  · simp only [reduceCtorEq, false_iff]
    omega
  · simp only [Except.error.injEq]
    exact ⟨fun e => ⟨by omega, e.symm⟩, fun e => e.2.symm⟩

theorem memRead_eq_ok {s : State} {a v : Word} : memRead s a = .ok v ↔ WordIs s a v := by
  rw [memRead, map_eq_ok]
  simp only [checkAddress_eq_ok, WordIs, exists_const, eq_comm (a := v)]

theorem memRead_eq_error {s : State} {a : Word} {f : Abort} :
    memRead s a = .error f ↔ s.ramWords ≤ a.toNat ∧ f = .memoryAddressOutOfRange a := by
  rw [memRead, map_eq_error, checkAddress_eq_error]

/-! ### Operand resolution -/

theorem resolveDeref_eq_ok {s : State} {o : Operand} {v : Word} : resolveDeref s o = .ok v ↔ DerefIs s o v := by
  cases o with
  | untagged i => exact readRegister_eq_ok
  | tagged i => exact memRead_eq_ok

theorem resolveDeref_eq_error {s : State} {o : Operand} {f : Abort} :
    resolveDeref s o = .error f ↔ DerefRaises s o f := by
  cases o with
  | untagged i => exact readRegister_eq_error
  | tagged i => exact memRead_eq_error

theorem resolveValue_eq_ok {s : State} {o : Operand} {v : Word} : resolveValue s o = .ok v ↔ ValueIs s o v := by
  cases o with
  | untagged i => exact readRegister_eq_ok
  | tagged i => simp only [resolveValue, ValueIs, Except.ok.injEq, eq_comm]

theorem resolveValue_eq_error {s : State} {o : Operand} {f : Abort} :
    resolveValue s o = .error f ↔ ValueRaises o f := by
  cases o with
  | untagged i => exact readRegister_eq_error
  | tagged i => simp [resolveValue, ValueRaises]

/-- The link location's address is the operand's value (43_control.md R161). -/
theorem linkJalr_eq_resolveValue (s : State) (o : Operand) : linkJalr s o = resolveValue s o := by
  cases o <;> rfl

/-! ### A handler's effects -/

section Effects

variable (s : State) (e : Effects)

@[simp] theorem applyEffects_regs : (applyEffects s e).regs =
    match e.register with
    | none => s.regs
    | some (i, v) => s.regs.set i v := by
  obtain ⟨_ | ⟨i, v⟩, _ | ⟨a, w⟩, _ | f, _ | _⟩ := e <;> rfl

@[simp] theorem applyEffects_mem : (applyEffects s e).mem =
    match e.ram with
    | none => s.mem
    | some (a, v) => writeWord s.mem a.toNat v := by
  obtain ⟨_ | ⟨i, v⟩, _ | ⟨a, w⟩, _ | f, _ | _⟩ := e <;> rfl

@[simp] theorem applyEffects_flags : (applyEffects s e).flags = e.flags.getD s.flags := by
  obtain ⟨_ | ⟨i, v⟩, _ | ⟨a, w⟩, _ | f, _ | _⟩ := e <;> rfl

@[simp] theorem applyEffects_status : (applyEffects s e).status = if e.halt then .halted else s.status := by
  obtain ⟨_ | ⟨i, v⟩, _ | ⟨a, w⟩, _ | f, _ | _⟩ := e <;> rfl

@[simp] theorem applyEffects_pc : (applyEffects s e).pc = s.pc := by
  obtain ⟨_ | ⟨i, v⟩, _ | ⟨a, w⟩, _ | f, _ | _⟩ := e <;> rfl

@[simp] theorem applyEffects_ir : (applyEffects s e).ir = s.ir := by
  obtain ⟨_ | ⟨i, v⟩, _ | ⟨a, w⟩, _ | f, _ | _⟩ := e <;> rfl

@[simp] theorem applyEffects_ramWords : (applyEffects s e).ramWords = s.ramWords := by
  obtain ⟨_ | ⟨i, v⟩, _ | ⟨a, w⟩, _ | f, _ | _⟩ := e <;> rfl

end Effects

/-- The program counter after the advance phase (40_execution_engine.md R97). -/
def nextPc (pc : Word) : Next → Word
  | .seq => pc + 1
  | .jump t => t

/-- The advance phase: the requested program counter, and the one-shot flag clear again. -/
theorem advance_requestNext (s : State) (n : Next) :
    advance (requestNext s n) = { s with pc := nextPc s.pc n, suppress := false } := by
  cases n <;> rfl

/-- What the end of dispatch answers: the fault entry, or the effects with the advance. -/
theorem complete_eq (s : State) (h : HandlerResult) :
    complete s h = .next (match h with
      | .error f => raise s f
      | .ok (e, n) => { applyEffects s e with pc := nextPc s.pc n, suppress := false }) := by
  rcases h with f | ⟨e, n⟩
  · rfl
  · simp only [complete, advance_requestNext, applyEffects_pc]

/-- The end of dispatch, inverted: it enters the fault, or applies the effects and advances. -/
theorem complete_cases {s t : State} {h : HandlerResult} (c : complete s h = .next t) :
    (∃ f, h = .error f ∧ t = raise s f) ∨
    (∃ e n, h = .ok (e, n) ∧ t = { applyEffects s e with pc := nextPc s.pc n, suppress := false }) := by
  rw [complete_eq] at c
  rcases h with f | ⟨e, n⟩
  · exact .inl ⟨f, rfl, (Host.Outcome.next.inj c).symm⟩
  · exact .inr ⟨e, n, rfl, (Host.Outcome.next.inj c).symm⟩

/-! ### The handlers with a destination -/

theorem aluHandler_eq_ok {p : Except Abort (Word × Word)} {f : Word → Word → Except Abort Word} {r : Nat}
    {x : Effects × Next} : aluHandler p f r = .ok x ↔
      ∃ va vb v, ∃ d : Fin 8, p = .ok (va, vb) ∧ f va vb = .ok v ∧ r = d.val ∧
        x = ({ register := some (d, v) }, .seq) := by
  unfold aluHandler resolveDest
  simp only [bind_eq_ok, checkRegister_eq_ok, pure, Except.pure, Except.ok.injEq, Prod.exists, eq_comm (b := x)]
  constructor
  · rintro ⟨va, vb, hp, v, hv, d, hd, hx⟩
    exact ⟨va, vb, v, d, hp, hv, hd, hx⟩
  · rintro ⟨va, vb, v, d, hp, hv, hd, hx⟩
    exact ⟨va, vb, hp, v, hv, d, hd, hx⟩

theorem aluHandler_eq_error {p : Except Abort (Word × Word)} {f : Word → Word → Except Abort Word} {r : Nat}
    {e : Abort} : aluHandler p f r = .error e ↔
      p = .error e ∨ ∃ va vb, p = .ok (va, vb) ∧
        (f va vb = .error e ∨ ∃ v, f va vb = .ok v ∧ 8 ≤ r ∧ e = .registerIndexOutOfRange r) := by
  unfold aluHandler resolveDest
  simp only [bind_eq_error, checkRegister_eq_error, pure, Except.pure, reduceCtorEq, and_false, exists_const,
    or_false, Prod.exists]

/-! ### The handler of every instruction -/

/-- The handler of an instruction, as the proofs name it (40_execution_engine.md R96). -/
def handlerOf (s : State) : Instr → HandlerResult
  | .add a b r => aluHandler (operandsAdd s a b) (fun va vb => .ok (va + vb)) r
  | .nand a b r => aluHandler (operandsNand s a b) (fun va vb => .ok (~~~(va &&& vb))) r
  | .lw d b offset => lwHandler s d b offset
  | .sw a b offset => swHandler s a b offset
  | .beq a b offset => beqHandler s a b offset
  | .jalr a b => jalrHandler s a b
  | .halt => .ok ({ halt := true }, .seq)
  | .noop => .ok ({}, .seq)
  | .inc a => incHandler s a
  | .idiv a b r => aluHandler (operandsIdiv s a b) (quotient s.pc) r
  | .imul a b r => aluHandler (operandsImul s a b) (fun va vb => .ok (va * vb)) r
  | .and a b r => aluHandler (operandsAnd s a b) (fun va vb => .ok (va &&& vb)) r
  | .xor a b r => aluHandler (operandsXor s a b) (fun va vb => .ok (va ^^^ vb)) r
  | .shr a b r => aluHandler (operandsShr s a b) shiftRight r
  | .adc a b r => aluHandler (operandsAdc s a b) (fun va vb => .ok (va + vb + carryIn s)) r
  | .sbb a b r => aluHandler (operandsSbb s a b) (fun va vb => .ok (va - vb - carryIn s)) r
  | .cmp a r => cmpHandler s a r
  | .jma => .ok ({}, .seq)
  | .jmbe => .ok ({}, .seq)

/-- Every instruction is the end of dispatch on its handler's result. -/
theorem exec_eq_complete (i : Instr) (s : State) : exec i s = complete s (handlerOf s i) := by
  cases i <;> rfl

/-- Every instruction, inverted: it enters a fault with no effect, or applies its handler's effects and advances. -/
theorem exec_cases {i : Instr} {s t : State} (h : exec i s = .next t) :
    (∃ f, handlerOf s i = .error f ∧ t = raise s f) ∨
    (∃ e n, handlerOf s i = .ok (e, n) ∧ t = { applyEffects s e with pc := nextPc s.pc n, suppress := false }) :=
  complete_cases (exec_eq_complete i s ▸ h)

/-! ### The step -/

/-- A step, inverted: a terminal state stays; a running one faults at fetch, faults at decode, or runs an
instruction. -/
theorem step_cases {s t : State} (h : step s = .next t) :
    (s.status ≠ .running ∧ t = s) ∨
    (s.status = .running ∧ s.ramWords ≤ s.pc.toNat ∧ t = raise s (.programCounterOutOfRange s.pc)) ∨
    (s.status = .running ∧ s.pc.toNat < s.ramWords ∧
      ((∃ e, decode (readWord s.mem s.pc.toNat) = .error e ∧
          t = raise (s.setIr (readWord s.mem s.pc.toNat)) (abortOfDecode e)) ∨
       (∃ i, decode (readWord s.mem s.pc.toNat) = .ok i ∧
          exec i (s.setIr (readWord s.mem s.pc.toNat)) = .next t))) := by
  unfold step fetch at h
  split at h
  · rename_i hs
    by_cases hp : s.pc.toNat < s.ramWords
    · rw [if_pos hp] at h
      refine .inr (.inr ⟨hs, hp, ?_⟩)
      simp only at h
      split at h
      · exact .inl ⟨_, ‹_›, (Host.Outcome.next.inj h).symm⟩
      · exact .inr ⟨_, ‹_›, h⟩
    · rw [if_neg hp] at h
      exact .inr (.inl ⟨hs, not_lt.1 hp, (Host.Outcome.next.inj h).symm⟩)
  · exact .inl ⟨by simp [*], (Host.Outcome.next.inj h).symm⟩
  · exact .inl ⟨by simp [*], (Host.Outcome.next.inj h).symm⟩

end Sys2Proof.Machine
end

