-- ==== Sys2Proof/Laws/PerInstr.lean ====
section
/-! SUPPORT. What is said of every instruction as syntax, one lemma per constructor: its word is canonical and
carries its opcode (30_encoding.md R62, R67). -/

namespace Sys2Proof.Laws.EncodesOpcode

/-- A well-formed instruction has a word; the word's high byte is zero and its opcode field is the instruction's. -/
def Statement (i : Instr) : Prop :=
  i.wellFormed = true → ∃ w, encode i = .ok w ∧ slice w 31 24 = 0 ∧ slice w 23 19 = i.opcode

/-- What the encoders answer for an opcode, two operands and a low field that fit: a word that carries the opcode. -/
theorem encoded {opcode : Nat} (ho : decide (opcode < 32) = true) (a b : Operand) {low : Nat}
    (h : (a.wellFormed && b.wellFormed && lowFits low) = true) :
    ∃ w, encodeTriple opcode a.idx b.idx low a.mode b.mode = .ok w ∧ slice w 31 24 = 0 ∧ slice w 23 19 = opcode := by
  simp only [Bool.and_eq_true, Operand.wellFormed_iff, lowFits_iff] at h
  obtain ⟨⟨ha, hb⟩, hl⟩ := h
  have ho := of_decide_eq_true ho
  have d := decodeFields_packFields ho ha hb hl a.mode_lt b.mode_lt
  exact ⟨_, encodeTriple_natCast ho ha hb hl a.mode_lt b.mode_lt, congrArg Fields.high d, congrArg Fields.opcode d⟩

/-- Two operands and no low field. -/
theorem encoded_pair {opcode : Nat} (ho : decide (opcode < 32) = true) (a b : Operand)
    (h : (a.wellFormed && b.wellFormed) = true) :
    ∃ w, encodeTriple opcode a.idx b.idx 0 a.mode b.mode = .ok w ∧ slice w 31 24 = 0 ∧ slice w 23 19 = opcode :=
  encoded ho a b (low := 0) ((Bool.and_true _).trans h)

/-- One operand. -/
theorem encoded_single {opcode : Nat} (ho : decide (opcode < 32) = true) (a : Operand) (h : a.wellFormed = true) :
    ∃ w, encodeTriple opcode a.idx 0 0 a.mode = .ok w ∧ slice w 31 24 = 0 ∧ slice w 23 19 = opcode :=
  encoded_pair ho a (.untagged 0) ((Bool.and_true _).trans h)

/-- No operand. -/
theorem encoded_none {opcode : Nat} (ho : decide (opcode < 32) = true) :
    ∃ w, encodeTriple opcode 0 0 0 = .ok w ∧ slice w 31 24 = 0 ∧ slice w 23 19 = opcode :=
  encoded_single ho (.untagged 0) rfl

/-- A bare left index and a low field. -/
theorem encoded_bare {opcode : Nat} (ho : decide (opcode < 32) = true) (a : Nat) {low : Nat}
    (h : (indexFits a && lowFits low) = true) :
    ∃ w, encodeTriple opcode a 0 low = .ok w ∧ slice w 31 24 = 0 ∧ slice w 23 19 = opcode :=
  encoded ho (.untagged a) (.untagged 0) ((congrArg (· && lowFits low) (Bool.and_true (indexFits a))).trans h)

theorem add (a b : Operand) (r : Nat) : Statement (.add a b r) := encoded (opcode := 0) rfl a b

theorem nand (a b : Operand) (r : Nat) : Statement (.nand a b r) := encoded (opcode := 1) rfl a b

theorem lw (d : Nat) (b : Operand) (n : Nat) : Statement (.lw d b n) :=
  encoded (opcode := 2) rfl (.untagged d) b

theorem sw (a b : Operand) (n : Nat) : Statement (.sw a b n) := encoded (opcode := 3) rfl a b

theorem beq (a b : Operand) (n : Nat) : Statement (.beq a b n) := encoded (opcode := 4) rfl a b

theorem jalr (a b : Operand) : Statement (.jalr a b) := encoded_pair (opcode := 5) rfl a b

theorem halt : Statement .halt := fun _ => encoded_none (opcode := 6) rfl

theorem noop : Statement .noop := fun _ => encoded_none (opcode := 7) rfl

theorem inc (a : Operand) : Statement (.inc a) := encoded_single (opcode := 8) rfl a

theorem idiv (a b : Operand) (r : Nat) : Statement (.idiv a b r) := encoded (opcode := 9) rfl a b

theorem imul (a b : Operand) (r : Nat) : Statement (.imul a b r) := encoded (opcode := 10) rfl a b

theorem and (a b : Operand) (r : Nat) : Statement (.and a b r) := encoded (opcode := 11) rfl a b

theorem xor (a b : Operand) (r : Nat) : Statement (.xor a b r) := encoded (opcode := 12) rfl a b

theorem shr (a b : Operand) (r : Nat) : Statement (.shr a b r) := encoded (opcode := 13) rfl a b

theorem adc (a b : Operand) (r : Nat) : Statement (.adc a b r) := encoded (opcode := 14) rfl a b

theorem sbb (a b : Operand) (r : Nat) : Statement (.sbb a b r) := encoded (opcode := 15) rfl a b

theorem cmp (a r : Nat) : Statement (.cmp a r) := encoded_bare (opcode := 16) rfl a

theorem jma : Statement .jma := fun _ => encoded_none (opcode := 17) rfl

theorem jmbe : Statement .jmbe := fun _ => encoded_none (opcode := 18) rfl

end Sys2Proof.Laws.EncodesOpcode
end

