-- ==== Sys2Proof/Tests/Slice0.lean ====
section
/-! SUPPORT. Tests of the model, each on values the spec works out (its file and vector or rule named), and one
witness for every statement that has hypotheses. -/

open Sys2Proof Sys2Proof.Machine

namespace Sys2Proof.Tests

/-! ### Helpers -/

/-- A reset machine of `n` RAM words with some registers and RAM words set, at `pc`. -/
def machine (n : Nat) (pc : Word) (regs : List (Fin 8 × Word)) (words : List (Nat × Word)) : State :=
  let s := (State.resetWith n).setPc pc
  let s := regs.foldl (fun s p => s.setReg p.1 p.2) s
  s.setMem (words.foldl (fun m p => writeWord m p.1 p.2) s.mem)

/-- The state one step leads to, if it answers a next state. -/
def after (s : State) : Option State :=
  match step s with
  | .next t => some t
  | _ => none

/-- A part of the state one step leads to. -/
def look {α : Type} (s : State) (part : State → α) : Option α := (after s).map part

/-! ### Parameters (00_scope.md R8) -/

theorem test_parameters_satisfy_the_relations :
    Config.significantWidth = Config.opcodeWidth + 2 * (1 + Config.indexWidth) + Config.operandWidth ∧
    Config.significantWidth ≤ Config.xlen ∧ Config.nregs ≤ 2 ^ Config.indexWidth ∧
    Config.nopc ≤ 2 ^ Config.opcodeWidth ∧ Config.LegalRamWords Config.resetRamWords ∧
    opcodeTable.length = Config.nopc := by decide

/-- Each opcode has one descriptor, at its own number (30_encoding.md R67). -/
theorem test_opcode_table_is_in_order : opcodeTable.map (fun d => d.id) = List.range 19 := by decide

/-! ### Well-formedness: each check refuses an ill-formed term (30_encoding.md R72) -/

theorem test_wellFormed_refuses_operand_a :
    Instr.wellFormed (.add (.untagged 32) (.untagged 0) 0) = false ∧
    Instr.wellFormed (.nand (.tagged 32) (.untagged 0) 0) = false ∧
    Instr.wellFormed (.idiv (.untagged 32) (.untagged 0) 0) = false ∧
    Instr.wellFormed (.imul (.tagged 32) (.untagged 0) 0) = false ∧
    Instr.wellFormed (.and (.untagged 32) (.untagged 0) 0) = false ∧
    Instr.wellFormed (.xor (.tagged 32) (.untagged 0) 0) = false ∧
    Instr.wellFormed (.shr (.untagged 32) (.untagged 0) 0) = false ∧
    Instr.wellFormed (.adc (.tagged 32) (.untagged 0) 0) = false ∧
    Instr.wellFormed (.sbb (.untagged 32) (.untagged 0) 0) = false ∧
    Instr.wellFormed (.sw (.tagged 32) (.untagged 0) 0) = false ∧
    Instr.wellFormed (.beq (.untagged 32) (.untagged 0) 0) = false ∧
    Instr.wellFormed (.jalr (.tagged 32) (.untagged 0)) = false ∧
    Instr.wellFormed (.inc (.tagged 32)) = false ∧
    Instr.wellFormed (.inc (.untagged 32)) = false := by decide

theorem test_wellFormed_refuses_operand_b :
    Instr.wellFormed (.add (.untagged 0) (.tagged 32) 0) = false ∧
    Instr.wellFormed (.nand (.untagged 0) (.untagged 32) 0) = false ∧
    Instr.wellFormed (.idiv (.untagged 0) (.tagged 32) 0) = false ∧
    Instr.wellFormed (.imul (.untagged 0) (.untagged 32) 0) = false ∧
    Instr.wellFormed (.and (.untagged 0) (.tagged 32) 0) = false ∧
    Instr.wellFormed (.xor (.untagged 0) (.untagged 32) 0) = false ∧
    Instr.wellFormed (.shr (.untagged 0) (.tagged 32) 0) = false ∧
    Instr.wellFormed (.adc (.untagged 0) (.untagged 32) 0) = false ∧
    Instr.wellFormed (.sbb (.untagged 0) (.tagged 32) 0) = false ∧
    Instr.wellFormed (.sw (.untagged 0) (.untagged 32) 0) = false ∧
    Instr.wellFormed (.beq (.untagged 0) (.tagged 32) 0) = false ∧
    Instr.wellFormed (.lw 0 (.tagged 32) 0) = false ∧
    Instr.wellFormed (.jalr (.untagged 0) (.untagged 32)) = false := by decide

theorem test_wellFormed_refuses_low_field :
    Instr.wellFormed (.add (.untagged 0) (.untagged 0) 128) = false ∧
    Instr.wellFormed (.nand (.untagged 0) (.untagged 0) 128) = false ∧
    Instr.wellFormed (.idiv (.untagged 0) (.untagged 0) 128) = false ∧
    Instr.wellFormed (.imul (.untagged 0) (.untagged 0) 128) = false ∧
    Instr.wellFormed (.and (.untagged 0) (.untagged 0) 128) = false ∧
    Instr.wellFormed (.xor (.untagged 0) (.untagged 0) 128) = false ∧
    Instr.wellFormed (.shr (.untagged 0) (.untagged 0) 128) = false ∧
    Instr.wellFormed (.adc (.untagged 0) (.untagged 0) 128) = false ∧
    Instr.wellFormed (.sbb (.untagged 0) (.untagged 0) 128) = false ∧
    Instr.wellFormed (.sw (.untagged 0) (.untagged 0) 128) = false ∧
    Instr.wellFormed (.beq (.untagged 0) (.untagged 0) 128) = false ∧
    Instr.wellFormed (.lw 0 (.untagged 0) 128) = false ∧
    Instr.wellFormed (.cmp 0 128) = false := by decide

theorem test_wellFormed_refuses_bare_index :
    Instr.wellFormed (.lw 32 (.untagged 0) 0) = false ∧
    Instr.wellFormed (.cmp 32 0) = false := by decide

/-- The largest field values are well-formed, an index of 8 or more among them (10_state.md R22). -/
theorem test_wellFormed_accepts_the_largest_fields :
    Instr.wellFormed (.add (.tagged 31) (.untagged 31) 127) = true ∧ Instr.wellFormed (.lw 31 (.tagged 31) 127) = true ∧
    Instr.wellFormed (.cmp 31 127) = true := by decide

/-! ### Decoding: words written out field by field, `high opcode M AAAAA N BBBBB OOOOOOO` (30_encoding.md R61, R67) -/

theorem test_decode_add : decodeTableWord 32 0b00000000_00000_0_00001_1_00110_0000011 =
    some (.add (.untagged 1) (.tagged 6) 3) := by decide

theorem test_decode_nand : decodeTableWord 32 0b00000000_00001_1_00101_0_00010_0000100 =
    some (.nand (.tagged 5) (.untagged 2) 4) := by decide

theorem test_decode_lw : decodeTableWord 32 0b00000000_00010_0_00011_1_01010_1111111 =
    some (.lw 3 (.tagged 10) 127) := by decide

theorem test_decode_sw : decodeTableWord 32 0b00000000_00011_1_01001_0_00001_0000010 =
    some (.sw (.tagged 9) (.untagged 1) 2) := by decide

theorem test_decode_beq : decodeTableWord 32 0b00000000_00100_0_00000_1_00011_0000100 =
    some (.beq (.untagged 0) (.tagged 3) 4) := by decide

theorem test_decode_jalr : decodeTableWord 32 0b00000000_00101_1_01000_1_00100_0000000 =
    some (.jalr (.tagged 8) (.tagged 4)) := by decide

theorem test_decode_halt : decodeTableWord 32 0b00000000_00110_0_00000_0_00000_0000000 =
    some (.halt) := by decide

theorem test_decode_noop : decodeTableWord 32 0b00000000_00111_0_00000_0_00000_0000000 =
    some (.noop) := by decide

theorem test_decode_inc : decodeTableWord 32 0b00000000_01000_1_10001_0_00000_0000000 =
    some (.inc (.tagged 17)) := by decide

theorem test_decode_idiv : decodeTableWord 32 0b00000000_01001_0_00100_0_00000_0000011 =
    some (.idiv (.untagged 4) (.untagged 0) 3) := by decide

theorem test_decode_imul : decodeTableWord 32 0b00000000_01010_0_00010_1_00010_0000100 =
    some (.imul (.untagged 2) (.tagged 2) 4) := by decide

theorem test_decode_and : decodeTableWord 32 0b00000000_01011_1_00001_0_00010_0000011 =
    some (.and (.tagged 1) (.untagged 2) 3) := by decide

theorem test_decode_xor : decodeTableWord 32 0b00000000_01100_0_00101_0_00000_0000110 =
    some (.xor (.untagged 5) (.untagged 0) 6) := by decide

theorem test_decode_shr : decodeTableWord 32 0b00000000_01101_0_00100_1_00001_0000101 =
    some (.shr (.untagged 4) (.tagged 1) 5) := by decide

theorem test_decode_adc : decodeTableWord 32 0b00000000_01110_1_11111_0_00001_0000010 =
    some (.adc (.tagged 31) (.untagged 1) 2) := by decide

theorem test_decode_sbb : decodeTableWord 32 0b00000000_01111_0_00000_0_00001_0000010 =
    some (.sbb (.untagged 0) (.untagged 1) 2) := by decide

theorem test_decode_cmp : decodeTableWord 32 0b00000000_10000_1_00111_1_11111_0000110 =
    some (.cmp 7 6) := by decide

theorem test_decode_jma : decodeTableWord 32 0b00000000_10001_0_00000_0_00000_0000000 =
    some (.jma) := by decide

theorem test_decode_jmbe : decodeTableWord 32 0b00000000_10010_1_10101_0_00000_0000001 =
    some (.jmbe) := by decide

/-- 95_test_vectors.md 2.1: the reserved opcode 31, a nonzero high byte, and both (the high byte is reported). -/
theorem test_decode_refuses :
    decode 0xFFFFFF = .error (.unknownOpcode 31) ∧ decode 0x01000000 = .error (.nonCanonicalWord 0x01000000) ∧
    decode 0xFF980000 = .error (.nonCanonicalWord 0xFF980000) ∧ decodeTableWord 32 0x980000 = none := by decide

/-- 95_test_vectors.md 2.1: encoder calls. -/
theorem test_encoders :
    encodeTriple 0 5 6 3 1 1 = .ok 0x04B303 ∧ encodeOffset 2 0 5 0 0 1 = .ok 0x101280 ∧
    encodeTriple 31 31 31 127 1 1 = .ok 0xFFFFFF ∧ encodeOffset 4 0 3 127 = .ok 0x2001FF ∧
    encodeTriple 32 0 0 0 = .error .encodingRangeError ∧ encodeOffset 2 0 0 (-1) = .error .encodingRangeError ∧
    encodeTriple 0 0 0 128 = .error .encodingRangeError ∧
    encodeTriple 0 0 0 0 0 2 = .error .encodingRangeError := by decide

/-- 42_load_store.md R151 and 43_control.md R161: the words of the two examples. -/
theorem test_encode :
    encode (.sw (.tagged 9) (.untagged 1) 0) = .ok 0x1D2080 ∧ encode (.jalr (.tagged 8) (.tagged 4)) = .ok 0x2D1200 ∧
    encode (.cmp 7 6) = .ok 0x80E006 := by decide

/-! ### One step on the vectors of 95_test_vectors.md: at most two theorems per instruction -/

/-- 95_test_vectors.md V2. -/
theorem test_add_wraps :
    look (machine 32 0 [(1, 0xFFFFFFFF), (2, 1), (3, 9)] [(0, 0x002103)])
      (fun t => (t.regs[3], t.pc, t.flags.C)) = some (0, 1, false) := by decide

/-- 95_test_vectors.md V4. -/
theorem test_add_dereferences_a_tagged_operand :
    look (machine 32 0 [(2, 1)] [(5, 10), (0, 303363)])
      (fun t => t.regs[3]) = some 11 := by decide

/-- 95_test_vectors.md V13. -/
theorem test_nand_takes_the_literal :
    look (machine 32 0 [(2, 0xFFFFFFFF)] [(5, 99), (0, 827651)])
      (fun t => t.regs[3]) = some 0xFFFFFFFA := by decide

/-- 95_test_vectors.md V11. -/
theorem test_nand_of_two_registers :
    look (machine 32 0 [(1, 0xF0F0F0F0), (2, 0xFF00FF00)] [(0, 532739)])
      (fun t => t.regs[3]) = some 0x0FFF0FFF := by decide

/-- 95_test_vectors.md V61. -/
theorem test_lw_from_a_register_base :
    look (machine 32 0 [(1, 10)] [(14, 77), (0, 1073284)])
      (fun t => (t.regs[3], t.pc)) = some (77, 1) := by decide

/-- 95_test_vectors.md V67. -/
theorem test_lw_wraps_its_address :
    look (machine 32 0 [(1, 0xFFFFFFFF)] [(1, 55), (0, 1048706)])
      (fun t => t.regs[0]) = some 55 := by decide

/-- 95_test_vectors.md V68. -/
theorem test_sw_stores_at_a_label :
    look (machine 32 0 [(1, 14)] [(0, 0x1D2080)])
      (fun t => (readWord t.mem 9, readWord t.mem 0)) = some (14, 0x1D2080) := by decide

/-- 95_test_vectors.md V71. -/
theorem test_sw_outside_ram_aborts :
    look (machine 32 0 [(1, 30), (2, 1)] [(0, 1581317)])
      (fun t => (t.status, t.pc)) = some (.aborted (.memoryAddressOutOfRange 35), 0) := by decide

/-- 95_test_vectors.md V80. -/
theorem test_beq_taken :
    look (machine 32 2 [] [(2, 0x200184)])
      (fun t => t.pc) = some 7 := by decide

/-- 95_test_vectors.md V81. -/
theorem test_beq_not_taken :
    look (machine 32 2 [(0, 1)] [(2, 0x200184)])
      (fun t => t.pc) = some 3 := by decide

/-- 95_test_vectors.md V87. -/
theorem test_jalr_links_in_ram :
    look (machine 32 1 [] [(1, 0x2D1200)])
      (fun t => (readWord t.mem 8, t.pc, t.regs.toList)) = some (2, 4, List.replicate 8 0) := by decide

/-- 95_test_vectors.md V88. -/
theorem test_jalr_links_through_a_register :
    look (machine 32 3 [(1, 20), (2, 7)] [(3, 2629888)])
      (fun t => (readWord t.mem 20, t.pc)) = some (4, 7) := by decide

/-- 95_test_vectors.md V101. -/
theorem test_halt :
    look (machine 32 31 [] [(31, 0x300000)])
      (fun t => (t.status, t.pc)) = some (.halted, 32) := by decide

/-- 95_test_vectors.md V103. -/
theorem test_noop :
    look (machine 32 6 [] [(6, 0x380000)])
      (fun t => (t.status, t.pc)) = some (.running, 7) := by decide

/-- 95_test_vectors.md V17. -/
theorem test_inc_register_wraps :
    look (machine 32 0 [(0, 0xFFFFFFFF)] [(0, 0x400000)])
      (fun t => (t.regs[0], t.flags.Z)) = some (0, false) := by decide

/-- 95_test_vectors.md V18. -/
theorem test_inc_ram :
    look (machine 32 0 [] [(5, 41), (0, 4497408)])
      (fun t => (readWord t.mem 5, t.regs[5])) = some (42, 0) := by decide

/-- 95_test_vectors.md V24. -/
theorem test_idiv_is_unsigned :
    look (machine 32 0 [(1, 0xFFFFFFFF), (2, 2)] [(0, 4727043)])
      (fun t => t.regs[3]) = some 0x7FFFFFFF := by decide

/-- 95_test_vectors.md V27. -/
theorem test_idiv_by_zero_aborts_before_the_destination :
    look (machine 32 0 [(1, 7)] [(0, 4727049)])
      (fun t => t.status) = some (.aborted (.divideByZero 0)) := by decide

/-- 95_test_vectors.md V30. -/
theorem test_imul_keeps_the_low_half :
    look (machine 32 0 [(1, 65536), (2, 65536), (3, 9)] [(0, 5251331)])
      (fun t => t.regs[3]) = some 0 := by decide

/-- 95_test_vectors.md V34. -/
theorem test_and_dereferences_a_tagged_operand :
    look (machine 32 0 [(2, 15)] [(5, 255), (0, 6070531)])
      (fun t => t.regs[3]) = some 15 := by decide

/-- 95_test_vectors.md V35. -/
theorem test_xor :
    look (machine 32 0 [(0, 5), (5, 6)] [(0, 6332422)])
      (fun t => t.regs[6]) = some 3 := by decide

/-- 95_test_vectors.md V38. -/
theorem test_shr_is_logical :
    look (machine 32 0 [(1, 0x80000000), (2, 31)] [(0, 6824195)])
      (fun t => t.regs[3]) = some 1 := by decide

/-- 95_test_vectors.md V40. -/
theorem test_shr_by_32_aborts :
    look (machine 32 0 [(1, 0x80000000), (2, 32)] [(0, 6824195)])
      (fun t => t.status) = some (.aborted (.shiftAmountOutOfRange 32)) := by decide

/-- 95_test_vectors.md V43. -/
theorem test_adc_adds_the_carry :
    look ((machine 32 0 [(1, 0xFFFFFFFF), (3, 9)] [(0, 7348483)]).setFlags ⟨true, true, false⟩)
      (fun t => (t.regs[3], t.flags)) = some (0, ⟨true, true, false⟩) := by decide

/-- 95_test_vectors.md V45. -/
theorem test_sbb_subtracts_the_borrow :
    look ((machine 32 0 [(0, 5), (1, 2)] [(0, 0x780082)]).setFlags ⟨true, false, false⟩)
      (fun t => t.regs[2]) = some 2 := by decide

/-- 95_test_vectors.md V50. -/
theorem test_cmp_below :
    look ((machine 32 0 [(0, 3), (1, 5)] [(0, 8388609)]).setFlags ⟨false, false, true⟩)
      (fun t => (t.flags, t.regs[1])) = some (⟨true, true, false⟩, 5) := by decide

/-- 95_test_vectors.md V54. -/
theorem test_cmp_ignores_the_mode_bit :
    look (machine 32 0 [(1, 4), (2, 4)] [(0, 8667010)])
      (fun t => t.flags) = some ⟨false, false, true⟩ := by decide

/-- 95_test_vectors.md V94. -/
theorem test_jma :
    look ((machine 32 3 [] [(3, 0x880000)]).setFlags ⟨true, true, false⟩)
      (fun t => (t.pc, t.flags)) = some (4, ⟨true, true, false⟩) := by decide

/-- 95_test_vectors.md V95. -/
theorem test_jmbe :
    look ((machine 32 3 [] [(3, 9961471)]).setFlags ⟨false, false, true⟩)
      (fun t => (t.pc, t.flags)) = some (4, ⟨false, false, true⟩) := by decide

/-- 95_test_vectors.md V114. -/
theorem test_fetch_outside_ram_aborts :
    look (machine 32 32 [] [])
      (fun t => (t.status, t.pc, t.ir)) = some (.aborted (.programCounterOutOfRange 32), 32, 0) := by decide

/-- 95_test_vectors.md V113. -/
theorem test_high_byte_is_checked_first :
    look (machine 32 0 [] [(0, 0xFF980000)])
      (fun t => (t.status, t.ir)) = some (.aborted (.nonCanonicalWord 0xFF980000), 0xFF980000) := by decide

/-! ### The host and the assembler -/

/-- 95_test_vectors.md H2: the image's byte order. -/
theorem test_image_bytes : readWord (writeBytes [] 0 [0x80, 0x12, 0x10, 0x00]) 0 = 0x00101280 := by decide

/-- 95_test_vectors.md H3, in a RAM of one word: a file one byte short, and one a byte long. -/
theorem test_image_size :
    hostDo (Session.boot 1) (.loadImage (some [1, 2, 3])) = (Session.boot 1, .loadError .invalidImageSizeError) ∧
    hostDo (Session.boot 1) (.loadImage (some [1, 2, 3, 4, 5])) =
      (Session.boot 1, .loadError .invalidImageSizeError) := by decide

/-- 95_test_vectors.md H5: no preset after a step. -/
theorem test_preset_after_step :
    (hostDo (hostRun (Session.boot 32) [.step]) (.presetRegister 0 5)).2 = .refusedAfterStep := by decide

/-- 95_test_vectors.md 2.2: the three lines of the text, its labels used before their lines, and a negative literal.
-/
theorem test_assemble :
    assemble 4 "  $a   lw  r0   $b 0 ; load\n\n\t; only a comment\nhalt\n$b .fill dec -1   \n".toList =
      .ok [0x101100, 0x300000, 0xFFFFFFFF, 0] := by decide

/-- 95_test_vectors.md 2.2: rejections. -/
theorem test_assemble_rejects :
    assemble 4 "add r1 r2 $a".toList = .error .encodingRangeError ∧
    assemble 4 "add r9 r1 r2".toList = .error .encodingRangeError ∧
    assemble 4 "foo r1".toList = .error .unknownMnemonicError ∧
    assemble 4 ".fill hex 10".toList = .error .unknownDirectiveError ∧
    assemble 4 "$a halt\n$a noop".toList = .error .duplicateLabelError ∧
    assemble 4 "jalr $s $nowhere".toList = .error .unresolvedLabelError ∧
    assemble 1 "halt\nhalt".toList = .error .programTooLargeError := by decide

/-! ### Witnesses: the hypotheses of each statement are met, at a boundary value for each clause

`busy` has 16 RAM words and sits at its last one; registers 0 and 7 hold an ordinary and the largest value, register
1 the divisor and shift amount 2, register 2 zero, register 3 the shift amount 32, register 4 RAM's last address and
register 5 the first address past it. -/

/-- The state most witnesses use. -/
def busy : State :=
  machine 16 15 [(0, 7), (1, 2), (3, 32), (4, 15), (5, 16), (6, 0xFFFFFFFF), (7, 0xFFFFFFFF)] [(0, 31), (15, 0x002103)]

/-- `busy` at the word `w` in RAM word 0. -/
def at0 (w : Word) : State := (busy.setPc 0).setMem (writeWord busy.mem 0 w)

/-- A register that exists and holds its value. -/
theorem register_is {s : State} {i : Nat} {v : Word} (h : i < 8) (e : v = s.regs[i]) : RegisterIs s i v :=
  Exists.intro h e

/-- The invariant holds in `busy`, which is no reset state. -/
theorem busy_inv : busy.Inv where
  memory_wf := by decide
  memory_in_ram := by decide
  ram_words_legal := by decide
  suppress_clear := by decide
  record_agrees := fun _ h => nomatch (show busy.status = .running by decide).symm.trans h

theorem witness_ResetMeetsTheInvariant : Config.LegalRamWords 1 ∧ Config.LegalRamWords (2 ^ 32) := by decide

/-- A step of `busy` that runs an instruction, and one that faults. -/
theorem witness_EveryStepKeepsTheInvariant :
    busy.Inv ∧ (∃ t, step busy = .next t ∧ t.status = .running) ∧
    (at0 0x980000).Inv ∧ ∃ t, step (at0 0x980000) = .next t ∧ t.status = .aborted (.unknownOpcode 19) :=
  ⟨busy_inv, ⟨_, rfl, by decide⟩,
    ⟨by decide, by decide, by decide, by decide, fun _ h =>
      nomatch (show (at0 0x980000).status = .running by decide).symm.trans h⟩, ⟨_, rfl, by decide⟩⟩

theorem witness_HostOperationsKeepTheInvariant : (⟨busy, false⟩ : Session).machine.Inv := busy_inv

theorem witness_DecodeOfEncodeIsTheInstruction :
    Instr.wellFormed (.add (.tagged 31) (.untagged 0) 127) = true ∧ Instr.wellFormed (.lw 31 (.tagged 31) 0) = true ∧
    Instr.wellFormed .jmbe = true := by decide

theorem witness_FieldsRoundTrip :
    (31 < 32 ∧ 31 < 32 ∧ 0 < 32 ∧ 127 < 128 ∧ 1 < 2 ∧ 0 < 2) ∧ slice 0x00FFFFFF 31 24 = 0 := by decide

/-- Both sides of the condition, at the bounds. -/
theorem witness_EncodersCheckEveryField :
    ((0 : Int) ≤ 31 ∧ (31 : Int) < 32 ∧ (0 : Int) ≤ 127 ∧ (127 : Int) < 128) ∧ ¬ (128 : Int) < 128 ∧ ¬ (0 : Int) ≤ -1 := by
  decide

theorem witness_IllFormedInstructionsHaveNoWord :
    Instr.wellFormed (.add (.untagged 32) (.untagged 0) 0) = false ∧ Instr.wellFormed (.cmp 0 128) = false := by decide

/-- One word for each branch. -/
theorem witness_DecodeRefusesExactlyTheIllegalWords :
    slice 0x01000000 31 24 ≠ 0 ∧ (slice 0x00980000 31 24 = 0 ∧ 19 ≤ slice 0x00980000 23 19) ∧
    (slice 0x0097FFFF 31 24 = 0 ∧ ¬ 19 ≤ slice 0x0097FFFF 23 19) := by decide

/-- For each clause two different words that meet it. -/
theorem witness_IgnoredFieldsAreDontCare :
    (slice 0x101280 31 19 = 2 ∧ slice 0x141280 31 19 = 2 ∧ slice 0x101280 17 0 = slice 0x141280 17 0) ∧
    (slice 0x800080 31 19 = 16 ∧ slice 0x841F80 31 19 = 16 ∧ slice 0x800080 17 13 = slice 0x841F80 17 13 ∧
      slice 0x800080 6 0 = slice 0x841F80 6 0) ∧
    (slice 0x2D1200 31 19 = 5 ∧ slice 0x2D127F 31 19 = 5 ∧ slice 0x2D1200 18 7 = slice 0x2D127F 18 7) ∧
    (slice 0x400000 31 19 = 8 ∧ slice 0x401FFF 31 19 = 8 ∧ slice 0x400000 18 13 = slice 0x401FFF 18 13) ∧
    (slice 0x300000 31 19 = 6 ∧ slice 0x37FFFF 31 19 = 6) := by decide

theorem witness_StepRunsTheDecodedInstruction :
    busy.status = .running ∧ busy.pc.toNat < busy.ramWords ∧
    decode (readWord busy.mem busy.pc.toNat) = .ok (.add (.untagged 1) (.untagged 2) 3) := by decide

theorem witness_PlacedWordRunsNext :
    busy.status = .running ∧ busy.pc.toNat < busy.ramWords ∧ memoryWf busy.mem = true ∧
    decodeTableWord 32 0x300000 = some .halt := by decide

theorem witness_FetchOutsideRamAborts :
    (busy.setPc 16).status = .running ∧ (busy.setPc 16).ramWords ≤ (busy.setPc 16).pc.toNat := by decide

theorem witness_RefusedWordsAbortAtDecode :
    ((at0 0x01000000).status = .running ∧ (at0 0x01000000).pc.toNat < (at0 0x01000000).ramWords ∧
      slice (readWord (at0 0x01000000).mem 0) 31 24 ≠ 0) ∧
    ((at0 0x980000).status = .running ∧ (at0 0x980000).pc.toNat < (at0 0x980000).ramWords ∧
      slice (readWord (at0 0x980000).mem 0) 31 24 = 0 ∧ 19 ≤ slice (readWord (at0 0x980000).mem 0) 23 19) := by decide

theorem witness_TerminalStatesAreFinal :
    (busy.setStatus .halted).status ≠ .running ∧ (busy.setStatus .halted).status = .halted ∧
    (raise busy (.divideByZero 15)).status ≠ .running ∧ HostOp.step ≠ .reset := by decide

theorem witness_HaltStopsTheMachine :
    busy.status ≠ .halted ∧ ∃ t, exec .halt busy = .next t ∧ t.status = .halted := ⟨by decide, _, rfl, by decide⟩

theorem witness_NoReturnFromAFault : ¬ SafeRun 0 (raise busy (.divideByZero 15)) := by
  rintro ⟨t, h, safe⟩
  cases h
  exact safe _ rfl

theorem witness_EveryStateHasANextState : (busy.setStatus .halted).status ≠ .running := by decide

/-- A fault at fetch and one at dispatch. -/
theorem witness_FaultsArePrecise :
    ((busy.setPc 16).status = .running ∧ ∃ t, step (busy.setPc 16) = .next t ∧
      t.status = .aborted (.programCounterOutOfRange 16)) ∧
    ((at0 0x482109).status = .running ∧ ∃ t, step (at0 0x482109) = .next t ∧ t.status = .aborted (.divideByZero 0)) :=
  ⟨⟨by decide, _, rfl, by decide⟩, ⟨by decide, _, rfl, by decide⟩⟩

/-- One instruction for each cause a handler raises. -/
theorem witness_HandlersRaiseOnlyTheirCauses :
    busy.status = .running ∧
    (∃ t, exec (.cmp 8 0) busy = .next t ∧ t.status = .aborted (.registerIndexOutOfRange 8)) ∧
    (∃ t, exec (.inc (.tagged 16)) busy = .next t ∧ t.status = .aborted (.memoryAddressOutOfRange 16)) ∧
    (∃ t, exec (.idiv (.untagged 0) (.untagged 2) 0) busy = .next t ∧ t.status = .aborted (.divideByZero 15)) ∧
    (∃ t, exec (.shr (.untagged 0) (.untagged 3) 0) busy = .next t ∧ t.status = .aborted (.shiftAmountOutOfRange 32)) :=
  ⟨by decide, ⟨_, rfl, by decide⟩, ⟨_, rfl, by decide⟩, ⟨_, rfl, by decide⟩, ⟨_, rfl, by decide⟩⟩

/-- A step that halts, and one that does not. -/
theorem witness_OnlyHaltReachesHalted :
    ((at0 0x300000).status = .running ∧ ∃ t, step (at0 0x300000) = .next t ∧ t.status = .halted) ∧
    (busy.status = .running ∧ ∃ t, step busy = .next t ∧ t.status = .running) :=
  ⟨⟨by decide, _, rfl, by decide⟩, ⟨by decide, _, rfl, by decide⟩⟩

/-- The hypotheses of the four clauses of `DerefAluRule`, which six instructions state, each at a bound: a register
and a RAM word as operands, a missing register, an address just past RAM, and a missing destination. -/
def DerefAluHypotheses : Prop :=
  (DerefIs busy (.untagged 7) 0xFFFFFFFF ∧ DerefIs busy (.tagged 15) 0x002103 ∧ 7 < 8) ∧
  DerefRaises busy (.untagged 8) (.registerIndexOutOfRange 8) ∧
  DerefRaises busy (.tagged 16) (.memoryAddressOutOfRange 16) ∧
  (DerefIs busy (.tagged 0) 31 ∧ DerefRaises busy (.tagged 31) (.memoryAddressOutOfRange 31)) ∧ 8 ≤ 8

theorem witness_DerefAluRule : DerefAluHypotheses :=
  ⟨⟨register_is (by decide) (by decide), ⟨by decide, by decide⟩, by decide⟩, ⟨by decide, by decide⟩,
    ⟨by decide, by decide⟩, ⟨⟨by decide, by decide⟩, ⟨by decide, by decide⟩⟩, by decide⟩

theorem witness_AddAddsDereferencedOperands : DerefAluHypotheses := witness_DerefAluRule

theorem witness_ImulKeepsLowHalfOfProduct : DerefAluHypotheses := witness_DerefAluRule

theorem witness_AndCombinesDereferencedOperands : DerefAluHypotheses := witness_DerefAluRule

theorem witness_XorCombinesDereferencedOperands : DerefAluHypotheses := witness_DerefAluRule

theorem witness_AdcAddsTheCarryIn : DerefAluHypotheses := witness_DerefAluRule

theorem witness_SbbSubtractsTheBorrowIn : DerefAluHypotheses := witness_DerefAluRule

theorem witness_NandCombinesOperandValues :
    (ValueIs busy (.untagged 7) 0xFFFFFFFF ∧ ValueIs busy (.tagged 31) 31 ∧ 7 < 8) ∧
    ValueRaises (.untagged 8) (.registerIndexOutOfRange 8) ∧ 8 ≤ 8 :=
  ⟨⟨register_is (by decide) (by decide), rfl, by decide⟩, ⟨by decide, rfl⟩, by decide⟩

theorem witness_IncAddsOneToRegisterOrRamWord :
    RegisterIs busy 7 0xFFFFFFFF ∧ 8 ≤ 8 ∧ WordIs busy (zext32 15) 0x002103 ∧
    busy.ramWords ≤ (zext32 16).toNat :=
  ⟨register_is (by decide) (by decide), by decide, ⟨by decide, by decide⟩, by decide⟩

theorem witness_IdivGivesUnsignedQuotient :
    (DerefIs busy (.untagged 7) 0xFFFFFFFF ∧ DerefIs busy (.untagged 1) 2 ∧ (2 : Word) ≠ 0 ∧ 7 < 8) ∧
    DerefRaises busy (.untagged 8) (.registerIndexOutOfRange 8) ∧
    DerefRaises busy (.tagged 16) (.memoryAddressOutOfRange 16) ∧ DerefIs busy (.untagged 2) 0 ∧ 8 ≤ 8 :=
  ⟨⟨register_is (by decide) (by decide), register_is (by decide) (by decide), by decide, by decide⟩,
    ⟨by decide, by decide⟩, ⟨by decide, by decide⟩, register_is (by decide) (by decide), by decide⟩

theorem witness_ShrShiftsRightLogically :
    (DerefIs busy (.untagged 7) 0xFFFFFFFF ∧ DerefIs busy (.tagged 0) 31 ∧ (31 : Word).toNat < 32 ∧ 7 < 8) ∧
    DerefRaises busy (.untagged 8) (.registerIndexOutOfRange 8) ∧
    DerefRaises busy (.tagged 16) (.memoryAddressOutOfRange 16) ∧
    (DerefIs busy (.untagged 3) 32 ∧ 32 ≤ (32 : Word).toNat) ∧ 8 ≤ 8 :=
  ⟨⟨register_is (by decide) (by decide), ⟨by decide, by decide⟩, by decide, by decide⟩, ⟨by decide, by decide⟩,
    ⟨by decide, by decide⟩, ⟨register_is (by decide) (by decide), by decide⟩, by decide⟩

/-- Registers below, equal and above one another; a missing left and a missing right register. -/
theorem witness_CmpSetsAllThreeFlags :
    RegisterIs busy 0 7 ∧ RegisterIs busy 7 0xFFFFFFFF ∧ RegisterIs busy 6 0xFFFFFFFF ∧ 8 ≤ 8 :=
  ⟨register_is (by decide) (by decide), register_is (by decide) (by decide), register_is (by decide) (by decide),
    by decide⟩

/-- RAM's last word, the first address past RAM, a missing base register and a missing destination. -/
theorem witness_LwLoadsTheAddressedWord :
    (ValueIs busy (.untagged 4) 15 ∧ WordIs busy (15 + zext32 0) 0x002103 ∧ 7 < 8) ∧
    (ValueIs busy (.untagged 7) 0xFFFFFFFF ∧ WordIs busy (0xFFFFFFFF + zext32 1) 31 ∧ 0 < 8) ∧
    ValueRaises (.untagged 8) (.registerIndexOutOfRange 8) ∧
    (ValueIs busy (.tagged 15) 15 ∧ busy.ramWords ≤ ((15 : Word) + zext32 1).toNat) ∧ 8 ≤ 8 :=
  ⟨⟨register_is (by decide) (by decide), ⟨by decide, by decide⟩, by decide⟩,
    ⟨register_is (by decide) (by decide), ⟨by decide, by decide⟩, by decide⟩, ⟨by decide, rfl⟩, ⟨rfl, by decide⟩,
    by decide⟩

theorem witness_SwStoresTheValue :
    (ValueIs busy (.untagged 4) 15 ∧ ValueIs busy (.tagged 31) 31 ∧ ((15 : Word) + zext32 0).toNat < busy.ramWords) ∧
    ValueRaises (.untagged 8) (.registerIndexOutOfRange 8) ∧
    (ValueIs busy (.untagged 5) 16 ∧ busy.ramWords ≤ ((16 : Word) + zext32 0).toNat) :=
  ⟨⟨register_is (by decide) (by decide), rfl, by decide⟩, ⟨by decide, rfl⟩,
    ⟨register_is (by decide) (by decide), by decide⟩⟩

/-- The word next to the one written, and the bytes on either side of it. -/
theorem witness_WriteReplacesOneWholeWord :
    memoryWf busy.mem = true ∧ 16 ≠ 15 ∧ 3 < 4 ∧ 59 / 4 ≠ 15 ∧ 64 / 4 ≠ 15 := by decide

theorem witness_StoredWordIsFetchedNext :
    memoryWf (busy.setPc 14).mem = true ∧ ValueIs (busy.setPc 14) (.tagged 15) 15 ∧
    ValueIs (busy.setPc 14) (.untagged 7) 0xFFFFFFFF ∧ (15 : Word) + zext32 0 = (busy.setPc 14).pc + 1 ∧
    ((busy.setPc 14).pc + 1).toNat < (busy.setPc 14).ramWords :=
  ⟨by decide, rfl, register_is (by decide) (by decide), by decide, by decide⟩

theorem witness_BeqBranchesForwardWhenEqual :
    (ValueIs busy (.untagged 6) 0xFFFFFFFF ∧ ValueIs busy (.untagged 7) 0xFFFFFFFF) ∧
    (ValueIs busy (.tagged 31) 31 ∧ (0xFFFFFFFF : Word) ≠ 31) ∧ ValueRaises (.untagged 8) (.registerIndexOutOfRange 8) :=
  ⟨⟨register_is (by decide) (by decide), register_is (by decide) (by decide)⟩, ⟨rfl, by decide⟩, ⟨by decide, rfl⟩⟩

theorem witness_JalrStoresLinkAndJumps :
    (ValueIs busy (.untagged 4) 15 ∧ ValueIs busy (.tagged 31) 31 ∧ (15 : Word).toNat < busy.ramWords) ∧
    ValueRaises (.untagged 8) (.registerIndexOutOfRange 8) ∧
    (ValueIs busy (.untagged 5) 16 ∧ busy.ramWords ≤ (16 : Word).toNat) :=
  ⟨⟨register_is (by decide) (by decide), rfl, by decide⟩, ⟨by decide, rfl⟩,
    ⟨register_is (by decide) (by decide), by decide⟩⟩

/-- An instruction that completes and writes another register. -/
theorem witness_OnlyTheDestinationRegisterChanges :
    (∃ t, exec (.add (.untagged 0) (.untagged 7) 3) busy = .next t ∧ t.status = .running) ∧
    destRegister (.add (.untagged 0) (.untagged 7) 3) ≠ some ((7 : Fin 8).val) := ⟨⟨_, rfl, by decide⟩, by decide⟩

/-- A store, with a byte just below its word, and an instruction that stores nothing. -/
theorem witness_OnlyTheStoredWordChanges :
    memoryWf busy.mem = true ∧ (∃ t, exec (.sw (.untagged 4) (.untagged 7) 0) busy = .next t ∧ t.status = .running) ∧
    (storeAddress busy (.sw (.untagged 4) (.untagged 7) 0) = some 15 ∧ 59 / 4 ≠ (15 : Word).toNat) ∧
    (∃ t, exec (.cmp 0 7) busy = .next t ∧ t.status = .running) ∧ storeAddress busy (.cmp 0 7) = none :=
  ⟨by decide, ⟨_, rfl, by decide⟩, by decide, ⟨_, rfl, by decide⟩, by decide⟩

theorem witness_OnlyCmpWritesTheFlags :
    (∃ t, exec (.adc (.untagged 7) (.untagged 7) 0) busy = .next t ∧ t.status = .running) ∧
    ∀ a r, Instr.adc (.untagged 7) (.untagged 7) 0 ≠ .cmp a r := ⟨⟨_, rfl, by decide⟩, nofun⟩

/-- `adc` with two flag records that agree on `C` alone, and `cmp` and `add` with two that agree on no flag; `cmp` is
the instruction of the clause about new flags, `add` one of the other clause. -/
theorem witness_OnlyAdcAndSbbReadAFlag :
    ((⟨true, true, false⟩ : Flags).C = (⟨true, false, true⟩ : Flags).C ∧
      (∃ t, exec (.adc (.untagged 7) (.untagged 7) 0) (busy.setFlags ⟨true, true, false⟩) = .next t) ∧
      ∃ u, exec (.adc (.untagged 7) (.untagged 7) 0) (busy.setFlags ⟨true, false, true⟩) = .next u) ∧
    ((∃ a r, Instr.cmp 0 7 = .cmp a r ∧ a < 8 ∧ r < 8) ∧
      (∃ t, exec (.cmp 0 7) (busy.setFlags ⟨true, true, false⟩) = .next t ∧ t.flags = ⟨true, true, false⟩) ∧
      ∃ u, exec (.cmp 0 7) (busy.setFlags ⟨false, false, true⟩) = .next u ∧ u.flags = ⟨true, true, false⟩) ∧
    ((¬ ((∃ a b r, Instr.add (.untagged 7) (.untagged 7) 0 = .adc a b r) ∨
        ∃ a b r, Instr.add (.untagged 7) (.untagged 7) 0 = .sbb a b r)) ∧
      (¬ ∃ a r, Instr.add (.untagged 7) (.untagged 7) 0 = .cmp a r ∧ a < 8 ∧ r < 8) ∧
      (∃ t, exec (.add (.untagged 7) (.untagged 7) 0) (busy.setFlags ⟨true, true, false⟩) = .next t) ∧
      ∃ u, exec (.add (.untagged 7) (.untagged 7) 0) (busy.setFlags ⟨false, false, true⟩) = .next u) :=
  ⟨⟨rfl, ⟨_, rfl⟩, ⟨_, rfl⟩⟩, ⟨⟨0, 7, rfl, by decide⟩, ⟨_, rfl, by decide⟩, ⟨_, rfl, by decide⟩⟩,
    ⟨(by rintro (⟨_, _, _, h⟩ | ⟨_, _, _, h⟩) <;> cases h), (by rintro ⟨_, _, h, _⟩; cases h), ⟨_, rfl⟩, ⟨_, rfl⟩⟩⟩

/-- One instruction for each way: in sequence, a taken branch, a jump. -/
theorem witness_ProgramCounterChangesInThreeWays :
    busy.status = .running ∧ (∃ t, exec .noop busy = .next t ∧ t.status = .running ∧ t.pc = 16) ∧
    (∃ t, exec (.beq (.untagged 6) (.untagged 7) 127) busy = .next t ∧ t.status = .running ∧ t.pc = 143) ∧
    (∃ t, exec (.jalr (.tagged 0) (.untagged 7)) busy = .next t ∧ t.status = .running ∧ t.pc = 0xFFFFFFFF) :=
  ⟨by decide, ⟨_, rfl, by decide, by decide⟩, ⟨_, rfl, by decide, by decide⟩, ⟨_, rfl, by decide, by decide⟩⟩

/-- A file of the right size for one RAM word, and one of a byte less. -/
theorem witness_LoadImagePlacesEveryWord :
    (Session.boot 1).stepped = false ∧ memoryWf (Session.boot 1).machine.mem = true ∧
    ([1, 2, 3, 4] : List Byte).length = 4 * (Session.boot 1).machine.ramWords ∧
    ([1, 2, 3] : List Byte).length ≠ 4 * (Session.boot 1).machine.ramWords ∧ 0 < (Session.boot 1).machine.ramWords := by
  decide

theorem witness_PresetsEndWithTheFirstStep :
    (hostRun (Session.boot 1) [.step]).stepped = true ∧ (Session.boot 1).stepped = false ∧ 7 < 8 ∧ 8 ≤ 8 ∧
    HostOp.presetFlags ⟨true, false, false⟩ ≠ .step ∧ HostOp.presetFlags ⟨true, false, false⟩ ≠ .reset := by decide

theorem witness_HostResetStartsAfresh :
    (⟨raise busy (.divideByZero 15), true⟩ : Session).machine.status ≠ .running ∧ HostOp.step ≠ .reset := by decide

theorem witness_ResetGivesTheSpecValues : (⟨busy.setStatus .halted, true⟩ : Session).machine.ramWords = 16 := by decide

theorem witness_HostStepPerformsOneStep : (⟨busy.setStatus .halted, true⟩ : Session).machine.status ≠ .running := by
  decide

theorem witness_ReadShowsTheWholeState : 15 < (⟨busy, true⟩ : Session).machine.ramWords := by decide

/-- A source of one labelled line: its labels and its word; its image in two words of RAM, the second one padding; and
a RAM of no word, which it does not fit. -/
theorem witness_AssembledImageIsPaddedToRam :
    collectLabels 0 [] ((sourceLines "$a halt".toList).map takeLabel) = .ok [(['$', 'a'], 0)] ∧
    assembleLines [(['$', 'a'], 0)] ((sourceLines "$a halt".toList).map takeLabel) = .ok [0x300000] ∧
    (sourceLines "$a halt".toList)[0]? = some [['$', 'a'], ['h', 'a', 'l', 't']] ∧
    (takeLabel [['$', 'a'], ['h', 'a', 'l', 't']]).label = some ['$', 'a'] ∧
    [(0x300000 : Word)].length ≤ 2 ∧ assemble 2 "$a halt".toList = .ok [0x300000, 0] ∧
    (sourceLines "$a halt".toList).length ≤ 1 ∧ 1 < 2 ∧ 0 < [(0x300000 : Word)].length ∧
    0 < (sourceLines "$a halt".toList).length := by decide

/-- A register and a label as arguments, a destination and an offset at their bounds, and a mnemonic of each shape. -/
theorem witness_InstructionLinesHaveTheWordOfTheirShape :
    operandArg [(['$', 'a'], 31)] ['r', '7'] = .ok (.untagged 7) ∧
    operandArg [(['$', 'a'], 31)] ['$', 'a'] = .ok (.tagged 31) ∧ destArg ['r', '1', '2', '7'] = .ok 127 ∧
    offsetArg ['1', '2', '7'] = .ok 127 ∧
    [OperandShape.none, .single, .pair, .pairDest, .pairOffset].all
      (fun shape => opcodeTable.any (fun d => d.shape == shape)) = true ∧
    digitValue '7' = some 7 ∧ [(['$', 'a'], 31)].lookup ['$', 'a'] = some 31 := by decide

end Sys2Proof.Tests
end

/-! Scope (00_scope.md R6 to R8): the reset state meets the invariant, and every state has a next state that keeps
RAM_WORDS. -/

namespace Sys2Proof.Proofs

open Sys2Proof Sys2Proof.Machine

/-! ### Reset -/

/-- The reset state lists no RAM byte and has no fault record, so only the legality of RAM_WORDS is asked. -/
theorem resetWith_inv {n : Nat} (legal : Config.LegalRamWords n) : (State.resetWith n).Inv where
  memory_wf := by rw [State.resetWith_mem, memoryWf_nil]
  memory_in_ram := by simp
  ram_words_legal := legal
  suppress_clear := State.resetWith_suppress n
  record_agrees := by simp

theorem resetRamWords_legal : Config.LegalRamWords Config.resetRamWords := by decide

/-- Settles O2: `State.reset` is the reset state of one legal RAM_WORDS. -/
theorem resetMeetsTheInvariant : Obligations.ResetMeetsTheInvariant :=
  ⟨fun _ legal => resetWith_inv legal, resetWith_inv resetRamWords_legal⟩

/-! ### A next state in every state (00_scope.md R6) -/

/-- Every handler result, a fault too, ends in a next state (log 4), and so does every instruction. -/
theorem exec_total (i : Instr) (s : State) : ∃ t, exec i s = .next t :=
  ⟨_, (exec_eq_complete i s).trans (complete_eq s (handlerOf s i))⟩

theorem step_total (s : State) : ∃ t, step s = .next t := by
  unfold step
  cases s.status with
  | halted => exact ⟨s, rfl⟩
  | aborted f => exact ⟨s, rfl⟩
  | running =>
    cases fetch s with
    | error f => exact ⟨raise s f, rfl⟩
    | ok w =>
      dsimp only
      cases decode w with
      | error e => exact ⟨raise (s.setIr w) (abortOfDecode e), rfl⟩
      | ok i => exact exec_total i (s.setIr w)

/-- No step is enabled where the machine is not running (40_execution_engine.md R91, log 5). -/
theorem step_eq_self_of_not_running {s t : State} (h : step s = .next t) (stopped : s.status ≠ .running) : t = s := by
  obtain ⟨-, same⟩ | ⟨running, -⟩ | ⟨running, -⟩ := step_cases h
  · exact same
  · exact absurd running stopped
  · exact absurd running stopped

/-! ### RAM_WORDS is constant (00_scope.md R7, log 1) -/

theorem exec_keeps_ramWords {i : Instr} {s t : State} (h : exec i s = .next t) : t.ramWords = s.ramWords := by
  obtain ⟨f, -, rfl⟩ | ⟨e, n, -, rfl⟩ := exec_cases h
  · exact raise_ramWords s f
  · exact applyEffects_ramWords s e

theorem step_keeps_ramWords {s t : State} (h : step s = .next t) : t.ramWords = s.ramWords := by
  obtain ⟨-, rfl⟩ | ⟨-, -, rfl⟩ | ⟨-, -, ⟨e, -, rfl⟩ | ⟨i, -, ran⟩⟩ := step_cases h
  · rfl
  · exact raise_ramWords s _
  · rw [raise_ramWords, State.setIr_ramWords]
  · rw [exec_keeps_ramWords ran, State.setIr_ramWords]

/-- Settles O18, from the totality of `step` and the two facts about the state it answers. -/
theorem everyStateHasANextState : Obligations.EveryStateHasANextState := by
  intro s
  obtain ⟨t, h⟩ := step_total s
  exact ⟨t, h, step_eq_self_of_not_running h, step_keeps_ramWords h⟩

end Sys2Proof.Proofs

/-! The state of 10_state.md: what each handler may write and record, the invariant of a step, and the rules of the
registers, the flags and the run status. -/

namespace Sys2Proof.Proofs

open Sys2Proof Sys2Proof.Machine

/-! ### What the effects of a handler may be -/

/-- The effects a completed handler may have: its one register is the instruction's destination (10_state.md R21), its
one RAM word is the instruction's and in RAM (20_memory.md R49), the flags are written by a `cmp` of two existing
registers alone (R25), and the halt is asked for by `halt` alone (R26). -/
structure PermittedEffects (s : State) (i : Instr) (e : Effects) : Prop where
  register : ∀ d v, e.register = some (d, v) → destRegister i = some d.val
  ram : ∀ a v, e.ram = some (a, v) → storeAddress s i = some a ∧ a.toNat < s.ramWords
  flags : e.flags ≠ none ↔ ∃ a r, i = .cmp a r ∧ a < 8 ∧ r < 8
  halt : e.halt = true ↔ i = .halt

section Permitted

variable {s : State} {i : Instr}

theorem permitted_register {d : Fin 8} {v : Word} (dest : destRegister i = some d.val) :
    PermittedEffects s i { register := some (d, v) } where
  register := by rintro _ _ ⟨⟩; exact dest
  ram := by simp
  flags := by simp only [ne_eq, not_true, false_iff]; rintro ⟨a, r, rfl, -⟩; cases dest
  halt := by simp only [Bool.false_eq_true, false_iff]; rintro rfl; cases dest

theorem permitted_store {a v : Word} (address : storeAddress s i = some a) (inRam : a.toNat < s.ramWords) :
    PermittedEffects s i { ram := some (a, v) } where
  register := by simp
  ram := by rintro _ _ ⟨⟩; exact ⟨address, inRam⟩
  flags := by simp only [ne_eq, not_true, false_iff]; rintro ⟨a, r, rfl, -⟩; cases address
  halt := by simp only [Bool.false_eq_true, false_iff]; rintro rfl; cases address

theorem permitted_none (notHalt : i ≠ .halt) (notCmp : ∀ a r, i ≠ .cmp a r) : PermittedEffects s i {} where
  register := by simp
  ram := by simp
  flags := by simp [notCmp]
  halt := by simp [notHalt]

theorem permitted_halt : PermittedEffects s .halt { halt := true } where
  register := by simp
  ram := by simp
  flags := by simp
  halt := by simp

theorem permitted_flags {a r : Nat} {f : Flags} (ha : a < 8) (hr : r < 8) :
    PermittedEffects s (.cmp a r) { flags := some f } where
  register := by simp
  ram := by simp
  flags := by simp [ha, hr]
  halt := by simp

/-! ### The handlers, where they complete -/

variable {e : Effects} {n : Next}

theorem aluHandler_permitted {p : Except Abort (Word × Word)} {op : Word → Word → Except Abort Word} {r : Nat}
    (dest : destRegister i = some r) (h : aluHandler p op r = .ok (e, n)) : PermittedEffects s i e := by
  obtain ⟨_, _, _, d, -, -, rfl, ⟨⟩⟩ := aluHandler_eq_ok.1 h
  exact permitted_register dest

theorem lwHandler_permitted {d : Nat} {b : Operand} {offset : Nat} (h : lwHandler s d b offset = .ok (e, n)) :
    PermittedEffects s (.lw d b offset) e := by
  simp only [lwHandler, bind_eq_ok, checkRegister_eq_ok] at h
  obtain ⟨_, -, _, -, _, rfl, ⟨⟩⟩ := h
  exact permitted_register rfl

theorem swHandler_permitted {a b : Operand} {offset : Nat} (h : swHandler s a b offset = .ok (e, n)) :
    PermittedEffects s (.sw a b offset) e := by
  simp only [swHandler, operandsSw, bind_eq_ok, inOrder_eq_ok, checkAddress_eq_ok] at h
  obtain ⟨⟨base, v⟩, ⟨hbase, -⟩, _, inRam, ⟨⟩⟩ := h
  exact permitted_store (by simp only [storeAddress, hbase]; rfl) inRam

theorem jalrHandler_permitted {a b : Operand} (h : jalrHandler s a b = .ok (e, n)) :
    PermittedEffects s (.jalr a b) e := by
  simp only [jalrHandler, operandsJalr, bind_eq_ok, inOrder_eq_ok, checkAddress_eq_ok] at h
  obtain ⟨⟨link, target⟩, ⟨hlink, -⟩, _, inRam, ⟨⟩⟩ := h
  exact permitted_store (by simp only [storeAddress, hlink]; rfl) inRam

theorem beqHandler_permitted {a b : Operand} {offset : Nat} (h : beqHandler s a b offset = .ok (e, n)) :
    PermittedEffects s (.beq a b offset) e := by
  simp only [beqHandler, bind_eq_ok] at h
  obtain ⟨_, -, ⟨⟩⟩ := h
  exact permitted_none (by simp) (by simp)

theorem incHandler_permitted {a : Operand} (h : incHandler s a = .ok (e, n)) : PermittedEffects s (.inc a) e := by
  cases a with
  | untagged k =>
    simp only [incHandler, bind_eq_ok, checkRegister_eq_ok] at h
    obtain ⟨_, rfl, ⟨⟩⟩ := h
    exact permitted_register rfl
  | tagged k =>
    simp only [incHandler, bind_eq_ok, memRead_eq_ok] at h
    obtain ⟨_, ⟨inRam, -⟩, ⟨⟩⟩ := h
    exact permitted_store rfl inRam

theorem cmpHandler_permitted {a r : Nat} (h : cmpHandler s a r = .ok (e, n)) : PermittedEffects s (.cmp a r) e := by
  simp only [cmpHandler, operandsCmp, resolvePlainReg, bind_eq_ok, inOrder_eq_ok, readRegister_eq_ok] at h
  obtain ⟨_, ⟨⟨ha, -⟩, ⟨hr, -⟩⟩, ⟨⟩⟩ := h
  exact permitted_flags ha hr

/-- What every instruction may do where it completes. -/
theorem handlerOf_permitted (h : handlerOf s i = .ok (e, n)) : PermittedEffects s i e := by
  cases i with
  | add | nand | idiv | imul | and | xor | shr | adc | sbb =>
    unfold handlerOf at h
    exact aluHandler_permitted rfl h
  | lw d b offset => exact lwHandler_permitted h
  | sw a b offset => exact swHandler_permitted h
  | beq a b offset => exact beqHandler_permitted h
  | jalr a b => exact jalrHandler_permitted h
  | inc a => exact incHandler_permitted h
  | cmp a r => exact cmpHandler_permitted h
  | halt => cases h; exact permitted_halt
  | noop | jma | jmbe => cases h; exact permitted_none (by simp) (by simp)

/-- Every instruction, inverted: it enters a fault with no effect, or has permitted effects and advances. -/
theorem exec_cases_permitted {t : State} (h : exec i s = .next t) :
    (∃ f, handlerOf s i = .error f ∧ t = raise s f) ∨
    (∃ e n, PermittedEffects s i e ∧ t = { applyEffects s e with pc := nextPc s.pc n, suppress := false }) := by
  obtain faulted | ⟨e, n, ok, ht⟩ := exec_cases h
  · exact .inl faulted
  · exact .inr ⟨e, n, handlerOf_permitted ok, ht⟩

end Permitted

/-! ### Registers (10_state.md R21) -/

theorem applyEffects_other_register {s : State} {i : Instr} {e : Effects} {j : Fin 8} (p : PermittedEffects s i e)
    (other : destRegister i ≠ some j.val) : (applyEffects s e).regs[j] = s.regs[j] := by
  rw [applyEffects_regs]
  cases written : e.register with
  | none => rfl
  | some w =>
    obtain ⟨d, v⟩ := w
    exact Vector.getElem_set_ne _ _ fun same => other (same ▸ p.register d v written)

/-- Settles O41: a fault writes no register, and a completed handler at most the destination. -/
theorem onlyTheDestinationRegisterChanges : Obligations.OnlyTheDestinationRegisterChanges := by
  intro i s t j h other
  obtain ⟨f, -, rfl⟩ | ⟨e, n, p, rfl⟩ := exec_cases_permitted h
  · rw [raise_regs]
  · exact applyEffects_other_register p other

/-! ### Flags (10_state.md R25) -/

theorem exec_keeps_ir {i : Instr} {s t : State} (h : exec i s = .next t) : t.ir = s.ir := by
  obtain ⟨f, -, rfl⟩ | ⟨e, n, -, rfl⟩ := exec_cases h
  · exact raise_ir s f
  · exact applyEffects_ir s e

/-- A `cmp` that names a register that does not exist keeps the flags too, since it faults. -/
theorem exec_keeps_flags {i : Instr} {s t : State} (h : exec i s = .next t)
    (notCmp : ¬ ∃ a r, i = .cmp a r ∧ a < 8 ∧ r < 8) : t.flags = s.flags := by
  obtain ⟨f, -, rfl⟩ | ⟨e, n, p, rfl⟩ := exec_cases_permitted h
  · exact raise_flags s f
  · have unwritten : e.flags = none := not_not.1 (mt p.flags.1 notCmp)
    exact (applyEffects_flags s e).trans (by rw [unwritten, Option.getD_none])

/-- Settles O43, from what each instruction keeps. -/
theorem onlyCmpWritesTheFlags : Obligations.OnlyCmpWritesTheFlags := fun _ _ _ h =>
  ⟨exec_keeps_ir h, exec_keeps_ramWords h, fun notCmp =>
    exec_keeps_flags h fun ⟨a, r, isCmp, _⟩ => notCmp a r isCmp⟩

/-! ### Noninterference of the flags (10_state.md R25) -/

/-- Every handler but those of `adc` and `sbb` names no flag, and those two name the carry alone. -/
theorem handlerOf_setFlags {i : Instr} (s : State) {f g : Flags}
    (carry : ((∃ a b r, i = .adc a b r) ∨ (∃ a b r, i = .sbb a b r)) → f.C = g.C) :
    handlerOf (s.setFlags f) i = handlerOf (s.setFlags g) i := by
  have same_carryIn (same : f.C = g.C) : carryIn (s.setFlags f) = carryIn (s.setFlags g) := by
    rw [carryIn, carryIn, State.setFlags_flags, State.setFlags_flags, same]
  cases i with
  | adc a b r => rw [handlerOf, handlerOf, same_carryIn (carry (.inl ⟨a, b, r, rfl⟩))]; rfl
  | sbb a b r => rw [handlerOf, handlerOf, same_carryIn (carry (.inr ⟨a, b, r, rfl⟩))]; rfl
  | _ => rfl

/-- The old flags reach nothing but the new flags. -/
theorem applyEffects_setFlags (s : State) (e : Effects) (f g : Flags) :
    (applyEffects (s.setFlags f) e).setFlags g = (applyEffects s e).setFlags g := by
  obtain ⟨_ | _, _ | _, _ | _, _ | _⟩ := e <;> rfl

/-- The end of dispatch of one handler's result, from two states that differ in the flags alone. -/
theorem complete_setFlags {s t u : State} {f g : Flags} {h : HandlerResult} (ht : complete (s.setFlags f) h = .next t)
    (hu : complete (s.setFlags g) h = .next u) (k : Flags) : t.setFlags k = u.setFlags k := by
  rw [complete_eq] at ht hu
  cases ht
  cases hu
  rcases h with x | ⟨e, n⟩
  · rfl
  · have same : (applyEffects (s.setFlags f) e).setFlags k = (applyEffects (s.setFlags g) e).setFlags k := by
      rw [applyEffects_setFlags, applyEffects_setFlags]
    exact congrArg (fun x => (x.setPc (nextPc s.pc n)).setSuppress false) same

/-- A `cmp` of two existing registers completes with the flags of their values (41_alu.md R130). -/
theorem cmpHandler_existing (s : State) {a r : Nat} (ha : a < 8) (hr : r < 8) :
    cmpHandler s a r = .ok ({ flags := some (compareFlags s.regs[a] s.regs[r]) }, .seq) := by
  have va : readRegister s a = .ok s.regs[a] := readRegister_eq_ok.2 ⟨ha, rfl⟩
  have vr : readRegister s r = .ok s.regs[r] := readRegister_eq_ok.2 ⟨hr, rfl⟩
  rw [cmpHandler, operandsCmp, resolvePlainReg, inOrder_eq_ok (v := (s.regs[a], s.regs[r])) |>.2 ⟨va, vr⟩]
  rfl

theorem exec_cmp_flags {s t : State} {a r : Nat} (ha : a < 8) (hr : r < 8) (h : exec (.cmp a r) s = .next t) :
    t.flags = compareFlags s.regs[a] s.regs[r] := by
  rw [exec_eq_complete, handlerOf, cmpHandler_existing s ha hr] at h
  cases h
  rfl

/-- Settles O44: both states give their handler the same result, and only a `cmp` that completes writes flags. -/
theorem onlyAdcAndSbbReadAFlag : Obligations.OnlyAdcAndSbbReadAFlag := by
  intro i s t u f g carry ht hu
  refine ⟨?_, ?_, fun notCmp => ⟨exec_keeps_flags ht notCmp, exec_keeps_flags hu notCmp⟩⟩
  · have same : handlerOf (s.setFlags f) i = handlerOf (s.setFlags g) i := handlerOf_setFlags s carry
    exact complete_setFlags (same ▸ exec_eq_complete i (s.setFlags f) ▸ ht)
      (exec_eq_complete i (s.setFlags g) ▸ hu) g
  · rintro ⟨a, r, rfl, ha, hr⟩
    exact (exec_cmp_flags ha hr ht).trans (exec_cmp_flags ha hr hu).symm

/-! ### The run status (10_state.md R26) -/

theorem exec_halts_iff {i : Instr} {s t : State} (notHalted : s.status ≠ .halted) (h : exec i s = .next t) :
    t.status = .halted ↔ i = .halt := by
  obtain ⟨f, faulted, rfl⟩ | ⟨e, n, p, rfl⟩ := exec_cases_permitted h
  · have notHalt : i ≠ .halt := by rintro rfl; cases faulted
    simp [notHalt]
  · rw [← p.halt]
    simp [notHalted]

/-- Settles O21: of the four ways a step can go only the run of an instruction can end in `halted`. -/
theorem onlyHaltReachesHalted : Obligations.OnlyHaltReachesHalted := by
  intro s t running h
  obtain ⟨stopped, -⟩ | ⟨-, outside, rfl⟩ | ⟨-, inRam, ⟨e, refused, rfl⟩ | ⟨i, decoded, ran⟩⟩ := step_cases h
  · exact absurd running stopped
  · simp [outside.not_gt]
  · simp [refused]
  · have notHalted : (s.setIr (readWord s.mem s.pc.toNat)).status ≠ .halted := by simp [running]
    rw [exec_halts_iff notHalted ran, decoded, Except.ok.injEq]
    exact (and_iff_right inRam).symm

/-! ### What the decoder answers (30_encoding.md R74, R75, R77) -/

theorem instrOfFields_error {d : Fields} {x : DecodeError} (h : instrOfFields d = .error x) :
    19 ≤ d.opcode ∧ x = .unknownOpcode d.opcode := by
  unfold instrOfFields at h
  split at h <;> cases h
  refine ⟨?_, rfl⟩
  simp only [imp_false] at *
  omega

/-- A refused word is not canonical, or its opcode field is reserved. -/
theorem decode_error {w : Word} {x : DecodeError} (h : decode w = .error x) :
    (slice w 31 24 ≠ 0 ∧ x = .nonCanonicalWord w) ∨
    (19 ≤ slice w 23 19 ∧ x = .unknownOpcode (slice w 23 19)) := by
  unfold decode at h
  split at h
  · exact .inl ⟨‹_›, (Except.error.inj h).symm⟩
  · exact .inr (instrOfFields_error h)

/-- The fields of the record fit their widths, since they are slices of them (30_encoding.md R63). -/
theorem instrOfFields_wellFormed {d : Fields} {i : Instr} (ha : d.regA.idx < 32) (hb : d.regB.idx < 32)
    (hr : d.regR < 128) (ho : d.operand < 128) (h : instrOfFields d = .ok i) : i.wellFormed = true := by
  unfold instrOfFields at h
  split at h <;> cases h <;> simp [Instr.wellFormed, ha, hb, hr, ho]

theorem decode_wellFormed {w : Word} {i : Instr} (h : decode w = .ok i) : i.wellFormed = true := by
  unfold decode at h
  split at h
  · cases h
  · refine instrOfFields_wellFormed ?_ ?_ (slice_lt w 6 0) (slice_lt w 6 0) h
    · exact (operandOf_idx _ _).trans_lt (slice_lt w 17 13)
    · exact (operandOf_idx _ _).trans_lt (slice_lt w 11 7)

/-! ### The fault a handler raises agrees with its state (60_exceptions.md R181) -/

/-- Where the computation raises a fault, its record agrees with the state. -/
def FaultsAgree {α : Type} (s : State) (x : Except Abort α) : Prop := ∀ f, x = .error f → recordAgrees s f

section FaultsAgree

variable {α β : Type} {s : State}

theorem faultsAgree_ok (a : α) : FaultsAgree s (.ok a) := by rintro f ⟨⟩

theorem faultsAgree_error {f : Abort} (h : recordAgrees s f) : FaultsAgree s (.error f : Except Abort α) := by
  rintro _ ⟨⟩
  exact h

theorem faultsAgree_bind {x : Except Abort α} {k : α → Except Abort β} (hx : FaultsAgree s x)
    (hk : ∀ a, FaultsAgree s (k a)) : FaultsAgree s (x >>= k) := by
  intro f h
  obtain raised | ⟨a, -, raised⟩ := bind_eq_error.1 h
  · exact hx f raised
  · exact hk a f raised

theorem faultsAgree_checkRegister {i : Nat} (fits : i < 128) : FaultsAgree s (checkRegister i) := by
  intro f h
  obtain ⟨missing, rfl⟩ := checkRegister_eq_error.1 h
  exact ⟨missing, Nat.le_of_lt_succ fits⟩

theorem faultsAgree_readRegister {i : Nat} (fits : i < 128) : FaultsAgree s (readRegister s i) := fun f h =>
  faultsAgree_checkRegister fits f (map_eq_error.1 h)

theorem faultsAgree_checkAddress (a : Word) : FaultsAgree s (checkAddress s a) := by
  intro f h
  obtain ⟨outside, rfl⟩ := checkAddress_eq_error.1 h
  exact outside

theorem faultsAgree_memRead (a : Word) : FaultsAgree s (memRead s a) := fun f h =>
  faultsAgree_checkAddress a f (map_eq_error.1 h)

theorem faultsAgree_resolveDeref {o : Operand} (fits : o.idx < 32) : FaultsAgree s (resolveDeref s o) := by
  cases o with
  | untagged i => exact faultsAgree_readRegister (Nat.lt_trans fits (by decide))
  | tagged i => exact faultsAgree_memRead _

theorem faultsAgree_resolveValue {o : Operand} (fits : o.idx < 32) : FaultsAgree s (resolveValue s o) := by
  cases o with
  | untagged i => exact faultsAgree_readRegister (Nat.lt_trans fits (by decide))
  | tagged i => exact faultsAgree_ok _

theorem faultsAgree_inOrder {a b : Except Abort Word} (ha : FaultsAgree s a) (hb : FaultsAgree s b) :
    FaultsAgree s (inOrder a b) :=
  faultsAgree_bind ha fun _ => faultsAgree_bind hb fun _ => faultsAgree_ok _

theorem faultsAgree_quotient (va vb : Word) : FaultsAgree s (quotient s.pc va vb) := by
  unfold quotient
  split
  · exact faultsAgree_error rfl
  · exact faultsAgree_ok _

theorem faultsAgree_shiftRight (va vb : Word) : FaultsAgree s (shiftRight va vb) := by
  unfold shiftRight
  split
  · exact faultsAgree_error ‹_›
  · exact faultsAgree_ok _

theorem faultsAgree_aluHandler {p : Except Abort (Word × Word)} {op : Word → Word → Except Abort Word} {r : Nat}
    (hp : FaultsAgree s p) (hop : ∀ va vb, FaultsAgree s (op va vb)) (fits : r < 128) :
    FaultsAgree s (aluHandler p op r) :=
  faultsAgree_bind hp fun v => faultsAgree_bind (hop v.1 v.2) fun _ =>
    faultsAgree_bind (faultsAgree_checkRegister fits) fun _ => faultsAgree_ok _

/-- Two dereferenced sources and a destination, which most of 41_alu.md has. -/
theorem faultsAgree_derefAlu {a b : Operand} {op : Word → Word → Except Abort Word} {r : Nat}
    (fits : (a.wellFormed && b.wellFormed && lowFits r) = true) (hop : ∀ va vb, FaultsAgree s (op va vb)) :
    FaultsAgree s (aluHandler (inOrder (resolveDeref s a) (resolveDeref s b)) op r) := by
  simp only [Bool.and_eq_true, Operand.wellFormed_iff, lowFits_iff] at fits
  obtain ⟨⟨ha, hb⟩, hr⟩ := fits
  exact faultsAgree_aluHandler (faultsAgree_inOrder (faultsAgree_resolveDeref ha) (faultsAgree_resolveDeref hb)) hop hr

/-- Two sources by value, as `sw`, `beq`, `jalr` and `nand` have them. -/
theorem faultsAgree_valuePair {a b : Operand} (ha : a.idx < 32) (hb : b.idx < 32) :
    FaultsAgree s (inOrder (resolveValue s a) (resolveValue s b)) :=
  faultsAgree_inOrder (faultsAgree_resolveValue ha) (faultsAgree_resolveValue hb)

/-- A register index of a well-formed instruction is at most 127, which the record of its fault asks for. -/
theorem faultsAgree_handlerOf {i : Instr} (wf : i.wellFormed = true) : FaultsAgree s (handlerOf s i) := by
  cases i with
  | add | imul | and | xor | adc | sbb =>
    unfold handlerOf
    exact faultsAgree_derefAlu wf fun _ _ => faultsAgree_ok _
  | idiv => exact faultsAgree_derefAlu wf faultsAgree_quotient
  | shr => exact faultsAgree_derefAlu wf faultsAgree_shiftRight
  | nand a b r =>
    simp only [Instr.wellFormed, Bool.and_eq_true, Operand.wellFormed_iff, lowFits_iff] at wf
    obtain ⟨⟨ha, hb⟩, hr⟩ := wf
    unfold handlerOf
    exact faultsAgree_aluHandler (faultsAgree_valuePair ha hb) (fun _ _ => faultsAgree_ok _) hr
  | lw d b offset =>
    simp only [Instr.wellFormed, Bool.and_eq_true, Operand.wellFormed_iff, indexFits_iff] at wf
    obtain ⟨⟨hd, hb⟩, -⟩ := wf
    exact faultsAgree_bind (faultsAgree_resolveValue hb) fun _ => faultsAgree_bind (faultsAgree_memRead _) fun _ =>
      faultsAgree_bind (faultsAgree_checkRegister (Nat.lt_trans hd (by decide))) fun _ => faultsAgree_ok _
  | sw a b offset =>
    simp only [Instr.wellFormed, Bool.and_eq_true, Operand.wellFormed_iff] at wf
    obtain ⟨⟨ha, hb⟩, -⟩ := wf
    exact faultsAgree_bind (faultsAgree_valuePair ha hb) fun _ =>
      faultsAgree_bind (faultsAgree_checkAddress _) fun _ => faultsAgree_ok _
  | beq a b offset =>
    simp only [Instr.wellFormed, Bool.and_eq_true, Operand.wellFormed_iff] at wf
    obtain ⟨⟨ha, hb⟩, -⟩ := wf
    exact faultsAgree_bind (faultsAgree_valuePair ha hb) fun _ => faultsAgree_ok _
  | jalr a b =>
    simp only [Instr.wellFormed, Bool.and_eq_true, Operand.wellFormed_iff] at wf
    obtain ⟨ha, hb⟩ := wf
    rw [handlerOf, jalrHandler, operandsJalr, linkJalr_eq_resolveValue]
    exact faultsAgree_bind (faultsAgree_valuePair ha hb) fun _ =>
      faultsAgree_bind (faultsAgree_checkAddress _) fun _ => faultsAgree_ok _
  | inc a =>
    cases a with
    | untagged k =>
      have hk : k < 32 := (Operand.wellFormed_iff _).1 wf
      exact faultsAgree_bind (faultsAgree_checkRegister (Nat.lt_trans hk (by decide))) fun _ => faultsAgree_ok _
    | tagged k => exact faultsAgree_bind (faultsAgree_memRead _) fun _ => faultsAgree_ok _
  | cmp a r =>
    simp only [Instr.wellFormed, Bool.and_eq_true, indexFits_iff, lowFits_iff] at wf
    obtain ⟨ha, hr⟩ := wf
    exact faultsAgree_bind (faultsAgree_inOrder (faultsAgree_readRegister (Nat.lt_trans ha (by decide)))
      (faultsAgree_readRegister hr)) fun _ => faultsAgree_ok _
  | halt | noop | jma | jmbe => exact faultsAgree_ok _

end FaultsAgree

/-! ### The invariant -/

section Invariant

variable {s t : State}

/-- A word write in RAM lists no byte outside RAM (20_memory.md R49). -/
theorem writeWord_in_ram {m : Memory} {n a : Nat} (v : Word) (h : ∀ c ∈ m, c.1 < 4 * n) (inRam : a < n) :
    ∀ c ∈ writeWord m a v, c.1 < 4 * n := by
  intro c hc
  obtain old | new := mem_writeWord hc
  · exact h c old
  · omega

theorem recordAgrees_raise (f g : Abort) : recordAgrees (raise s f) g ↔ recordAgrees s g := by
  cases g <;> exact Iff.rfl

/-- Fault entry keeps the invariant where the record agrees with the state. -/
theorem raise_inv {f : Abort} (inv : s.Inv) (agrees : recordAgrees s f) : (raise s f).Inv where
  memory_wf := inv.memory_wf
  memory_in_ram := inv.memory_in_ram
  ram_words_legal := inv.ram_words_legal
  suppress_clear := inv.suppress_clear
  record_agrees := by rintro g ⟨⟩; exact (recordAgrees_raise f f).2 agrees

/-- The fetch may write `ir`, since a running machine has no record to agree with it. -/
theorem setIr_inv {w : Word} (inv : s.Inv) (running : s.status = .running) : (s.setIr w).Inv where
  memory_wf := inv.memory_wf
  memory_in_ram := inv.memory_in_ram
  ram_words_legal := inv.ram_words_legal
  suppress_clear := inv.suppress_clear
  record_agrees := by simp [running]

theorem applyEffects_memory_wf {e : Effects} (h : memoryWf s.mem = true) : memoryWf (applyEffects s e).mem = true := by
  rw [applyEffects_mem]
  cases e.ram with
  | none => exact h
  | some w => exact memoryWf_writeWord _ _ h

theorem applyEffects_memory_in_ram {i : Instr} {e : Effects} (p : PermittedEffects s i e)
    (h : ∀ c ∈ s.mem, c.1 < 4 * s.ramWords) : ∀ c ∈ (applyEffects s e).mem, c.1 < 4 * s.ramWords := by
  rw [applyEffects_mem]
  cases stored : e.ram with
  | none => exact h
  | some w =>
    obtain ⟨-, inRam⟩ := p.ram w.1 w.2 stored
    exact writeWord_in_ram w.2 h inRam

/-- A completed handler leaves a machine that runs on or is halted. -/
theorem applyEffects_not_aborted {e : Effects} (running : s.status = .running) (f : Abort) :
    (applyEffects s e).status ≠ .aborted f := by
  rw [applyEffects_status, running]
  split <;> simp

/-- A running machine keeps the invariant by every instruction a word can hold. -/
theorem exec_keeps_inv {i : Instr} (inv : s.Inv) (running : s.status = .running) (wf : i.wellFormed = true)
    (h : exec i s = .next t) : t.Inv := by
  obtain ⟨f, faulted, rfl⟩ | ⟨e, n, p, rfl⟩ := exec_cases_permitted h
  · exact raise_inv inv (faultsAgree_handlerOf wf f faulted)
  · exact {
      memory_wf := applyEffects_memory_wf inv.memory_wf
      memory_in_ram := by simpa using applyEffects_memory_in_ram p inv.memory_in_ram
      ram_words_legal := by simpa using inv.ram_words_legal
      suppress_clear := rfl
      record_agrees := fun f aborted => absurd aborted (applyEffects_not_aborted running f) }

/-- The record of a refused word agrees with the state whose `ir` holds the word (60_exceptions.md R183, R184). -/
theorem abortOfDecode_agrees {w : Word} {x : DecodeError} (h : decode w = .error x) :
    recordAgrees (s.setIr w) (abortOfDecode x) := by
  obtain ⟨high, rfl⟩ | ⟨reserved, rfl⟩ := decode_error h
  · exact ⟨rfl, high⟩
  · exact ⟨rfl, reserved, Nat.le_of_lt_succ (slice_lt w 23 19)⟩

end Invariant

/-- Settles O3, by the four ways a step can go. -/
theorem everyStepKeepsTheInvariant : Obligations.EveryStepKeepsTheInvariant := by
  intro s t inv h
  obtain ⟨-, rfl⟩ | ⟨-, outside, rfl⟩ | ⟨running, -, ⟨x, refused, rfl⟩ | ⟨i, decoded, ran⟩⟩ := step_cases h
  · exact inv
  · exact raise_inv inv ⟨rfl, outside⟩
  · exact raise_inv (setIr_inv inv running) (abortOfDecode_agrees refused)
  · exact exec_keeps_inv (setIr_inv inv running) ((State.setIr_status s _).trans running)
      (decode_wellFormed decoded) ran

end Sys2Proof.Proofs

/-! The RAM of 20_memory.md: what a word write changes, what every instruction leaves of RAM, and how a word placed or
stored in RAM reaches the next fetch. -/

namespace Sys2Proof.Proofs

open Sys2Proof Sys2Proof.Machine

/-! ### One word written (20_memory.md R43, R46, R47, R52) -/

theorem readWord_writeWord_same {m : Memory} (wf : memoryWf m = true) (a : Nat) (v : Word) :
    readWord (writeWord m a v) a = v := by
  rw [readWord_writeWord wf, if_pos rfl]

theorem readWord_writeWord_other {m : Memory} (wf : memoryWf m = true) {a b : Nat} (v : Word) (other : b ≠ a) :
    readWord (writeWord m a v) b = readWord m b := by
  rw [readWord_writeWord wf, if_neg other]

theorem readByte_writeWord_same {m : Memory} (wf : memoryWf m = true) (a : Nat) (v : Word) {i : Nat} (hi : i < 4) :
    readByte (writeWord m a v) (4 * a + i) = byteOfWord v i := by
  have word : (4 * a + i) / 4 = a := by omega
  have byte : (4 * a + i) % 4 = i := by omega
  rw [readByte_writeWord wf, if_pos word, byte]

/-- Settles O35, from read after write for words and for bytes. -/
theorem writeReplacesOneWholeWord : Obligations.WriteReplacesOneWholeWord := fun _ a v wf =>
  ⟨memoryWf_writeWord a v wf, readWord_writeWord_same wf a v, fun _ other => readWord_writeWord_other wf v other,
    fun _ hi => readByte_writeWord_same wf a v hi, fun _ outside => readByte_writeWord_other wf v outside⟩

/-! ### The frame of RAM (20_memory.md R41, R53) -/

/-- The effects reach no byte outside the instruction's own word, and none at all where it has no such word. -/
theorem applyEffects_other_byte {s : State} {i : Instr} {e : Effects} {x : Nat} (p : PermittedEffects s i e)
    (wf : memoryWf s.mem = true) (outside : ∀ a, storeAddress s i = some a → x / 4 ≠ a.toNat) :
    readByte (applyEffects s e).mem x = readByte s.mem x := by
  rw [applyEffects_mem]
  cases stored : e.ram with
  | none => rfl
  | some w =>
    obtain ⟨a, v⟩ := w
    obtain ⟨address, -⟩ := p.ram a v stored
    exact readByte_writeWord_other wf v (outside a address)

theorem exec_other_byte {s t : State} {i : Instr} {x : Nat} (wf : memoryWf s.mem = true) (h : exec i s = .next t)
    (outside : ∀ a, storeAddress s i = some a → x / 4 ≠ a.toNat) : readByte t.mem x = readByte s.mem x := by
  obtain ⟨f, -, rfl⟩ | ⟨e, n, p, rfl⟩ := exec_cases_permitted h
  · rw [raise_mem]
  · exact applyEffects_other_byte p wf outside

/-- Settles O42: both clauses are the frame of RAM, where the address is known and where there is none. -/
theorem onlyTheStoredWordChanges : Obligations.OnlyTheStoredWordChanges := by
  intro i s t wf h
  constructor
  · intro a x address other
    refine exec_other_byte wf h fun b same => ?_
    obtain rfl : a = b := Option.some.inj (address.symm.trans same)
    exact other
  · intro noStore x
    refine exec_other_byte wf h fun b same => ?_
    cases noStore.symm.trans same

/-! ### What the fetch reads (40_execution_engine.md R93, R94; 20_memory.md R56) -/

theorem fetch_in_ram {s : State} (inRam : s.pc.toNat < s.ramWords) : fetch s = .ok (readWord s.mem s.pc.toNat) :=
  if_pos inRam

theorem step_of_fetched_instruction {s : State} {w : Word} {i : Instr} (running : s.status = .running)
    (fetched : fetch s = .ok w) (decoded : decode w = .ok i) : step s = exec i (s.setIr w) := by
  simp only [step, running, fetched, decoded]

/-! ### A word the host placed (70_reset_and_hazards.md R213, log 7) -/

/-- The byte decoder reads a table word's four bytes as the engine reads the word. -/
theorem decode_of_decodeTableWord {n w : Nat} {i : Instr} (h : decodeTableWord n w = some i) :
    decode (tableWord n w) = .ok i := by
  simp only [decodeTableWord, bytesOfWord, decodeBytes, wordOfBytes_byteOfWord] at h
  cases decoded : decode (tableWord n w) with
  | error x => simp [decoded] at h
  | ok j => simpa [decoded] using h

theorem tableWord_full_width (w : Nat) : tableWord 32 w = BitVec.ofNat 32 w := by
  apply BitVec.eq_of_toNat_eq
  simp [tableWord]

theorem fetch_withFetchWord {s : State} (n w : Nat) (wf : memoryWf s.mem = true) (inRam : s.pc.toNat < s.ramWords) :
    fetch (s.withFetchWord n w) = .ok (tableWord n w) := by
  have placed : readWord (s.withFetchWord n w).mem s.pc.toNat = tableWord n w := readWord_writeWord_same wf _ _
  exact (fetch_in_ram (s := s.withFetchWord n w) inRam).trans (congrArg Except.ok placed)

/-- Settles O13: the fetch reads the placed word back, and its decode is that of its bytes. -/
theorem placedWordRunsNext : Obligations.PlacedWordRunsNext := by
  intro s w i running inRam wf decodes
  have fetched : fetch (s.withFetchWord 32 w) = .ok (tableWord 32 w) := fetch_withFetchWord 32 w wf inRam
  rw [← tableWord_full_width]
  exact step_of_fetched_instruction running fetched (decode_of_decodeTableWord decodes)

/-! ### A word the program stored (20_memory.md R56, 70_reset_and_hazards.md R217) -/

/-- A store whose operands have values and whose address is in RAM completes (42_load_store.md R151). -/
theorem swHandler_of_values {s : State} {a b : Operand} {offset : Nat} {base v : Word} (hbase : ValueIs s a base)
    (hv : ValueIs s b v) (inRam : (effectiveAddress base offset).toNat < s.ramWords) :
    swHandler s a b offset = .ok ({ ram := some (effectiveAddress base offset, v) }, .seq) := by
  have operands : operandsSw s a b = .ok (base, v) :=
    inOrder_eq_ok.2 ⟨resolveValue_eq_ok.2 hbase, resolveValue_eq_ok.2 hv⟩
  have address : checkAddress s (effectiveAddress base offset) = .ok () := checkAddress_eq_ok.2 inRam
  exact bind_eq_ok.2 ⟨_, operands, bind_eq_ok.2 ⟨(), address, rfl⟩⟩

theorem exec_sw_of_values {s : State} {a b : Operand} {offset : Nat} {base v : Word} (hbase : ValueIs s a base)
    (hv : ValueIs s b v) (inRam : (effectiveAddress base offset).toNat < s.ramWords) :
    exec (.sw a b offset) s = .next { s with
      mem := writeWord s.mem (effectiveAddress base offset).toNat v, pc := s.pc + 1, suppress := false } := by
  rw [exec_eq_complete, handlerOf, swHandler_of_values hbase hv inRam]
  rfl

/-- Settles O36: the store's next state fetches at the word it replaced. -/
theorem storedWordIsFetchedNext : Obligations.StoredWordIsFetchedNext := by
  intro a b offset s base v wf hbase hv atNext inRam
  have address : effectiveAddress base offset = s.pc + 1 := atNext
  refine ⟨_, exec_sw_of_values hbase hv (address ▸ inRam), ?_⟩
  rw [fetch_in_ram inRam, address, readWord_writeWord_same wf]

end Sys2Proof.Proofs

/-! The encoding of 30_encoding.md: the record of fields the encoders pack for an instruction, the two encoders and the
field decoder as inverses, and what the engine's decode refuses and ignores. -/

namespace Sys2Proof.Proofs

open Sys2Proof Sys2Proof.Machine

/-! ### The fields of an instruction (30_encoding.md R68, log 8) -/

/-- The record of an instruction's word: the fields its handler reads, and 0 in the ignored ones. -/
def fieldsOf (i : Instr) : Fields :=
  match i with
  | .add a b n | .nand a b n | .sw a b n | .beq a b n | .idiv a b n | .imul a b n | .and a b n | .xor a b n
  | .shr a b n | .adc a b n | .sbb a b n => ⟨0, i.opcode, a, b, n, n⟩
  | .lw d b n => ⟨0, i.opcode, .untagged d, b, n, n⟩
  | .cmp a r => ⟨0, i.opcode, .untagged a, .untagged 0, r, r⟩
  | .jalr a b => ⟨0, i.opcode, a, b, 0, 0⟩
  | .inc a => ⟨0, i.opcode, a, .untagged 0, 0, 0⟩
  | .halt | .noop | .jma | .jmbe => ⟨0, i.opcode, .untagged 0, .untagged 0, 0, 0⟩

/-- The record is the one `instrOfFields` reads the instruction from. -/
theorem instrOfFields_fieldsOf (i : Instr) : instrOfFields (fieldsOf i) = .ok i := by cases i <;> rfl

/-- Both views of the low field hold the same bits (30_encoding.md R64). -/
theorem fieldsOf_eq (i : Instr) :
    fieldsOf i = ⟨0, i.opcode, (fieldsOf i).regA, (fieldsOf i).regB, (fieldsOf i).regR, (fieldsOf i).regR⟩ := by
  cases i <;> rfl

theorem encode_eq_encodeTriple (i : Instr) :
    encode i = encodeTriple i.opcode (fieldsOf i).regA.idx (fieldsOf i).regB.idx (fieldsOf i).regR
      (fieldsOf i).regA.mode (fieldsOf i).regB.mode := by cases i <;> rfl

/-- Which instructions fit is a matter of the record alone: an ignored field always fits. -/
theorem wellFormed_iff_fieldsOf (i : Instr) : i.wellFormed = true ↔
    (fieldsOf i).regA.idx < 32 ∧ (fieldsOf i).regB.idx < 32 ∧ (fieldsOf i).regR < 128 := by
  cases i <;> simp [Instr.wellFormed, fieldsOf, Operand.idx, and_assoc]

theorem opcode_lt (i : Instr) : i.opcode < 19 := by cases i <;> simp [Instr.opcode]

/-! ### Encode, then decode (30_encoding.md R73) -/

/-- Settles O5: the word packs the fields of the instruction, the decoder reads those fields back, and they are the
instruction's. -/
theorem decodeOfEncodeIsTheInstruction : Obligations.DecodeOfEncodeIsTheInstruction := by
  intro i wf
  obtain ⟨ha, hb, hl⟩ := (wellFormed_iff_fieldsOf i).1 wf
  have ho : i.opcode < 32 := (opcode_lt i).trans (by decide)
  refine ⟨_, (encode_eq_encodeTriple i).trans
    (encodeTriple_natCast ho ha hb hl (Operand.mode_lt _) (Operand.mode_lt _)), ?_⟩
  rw [decode_packFields ho ha hb hl (Operand.mode_lt _) (Operand.mode_lt _), operandOf_parts, operandOf_parts,
    ← fieldsOf_eq, instrOfFields_fieldsOf]

/-! ### The encoders (30_encoding.md R72) -/

theorem encodeTriple_accepted {op a b low am bm : Int} (h : encoderAccepts op a b low am bm = true) :
    ∃ w, encodeTriple op a b low am bm = .ok w := ⟨_, if_pos h⟩

theorem encodeTriple_rejected {op a b low am bm : Int} (h : ¬ encoderAccepts op a b low am bm = true) :
    encodeTriple op a b low am bm = .error .encodingRangeError := if_neg h

/-- A mode below 2 is one of the two mode bits. -/
theorem mode_bit_iff {m : Int} : 0 ≤ m ∧ m < 2 ↔ m = 0 ∨ m = 1 := by omega

/-- Settles O7: the condition of R72 is what both encoders check. -/
theorem encodersCheckEveryField : Obligations.EncodersCheckEveryField := by
  intro op a b r am bm
  rw [encodeOffset_eq]
  simp only [← mode_bit_iff, ← encoderAccepts_iff]
  split
  · rename_i fits
    exact ⟨encodeTriple_accepted fits, encodeTriple_accepted fits⟩
  · rename_i unfit
    exact ⟨encodeTriple_rejected unfit, encodeTriple_rejected unfit⟩

/-- Settles O8: the encoder accepts the fields of an instruction only where all of them fit. -/
theorem illFormedInstructionsHaveNoWord : Obligations.IllFormedInstructionsHaveNoWord := by
  intro i ill
  rw [encode_eq_encodeTriple]
  refine encodeTriple_rejected fun accepted => Bool.false_ne_true (ill.symm.trans ?_)
  obtain ⟨-, ⟨-, ha⟩, ⟨-, hb⟩, ⟨-, hl⟩, -⟩ := encoderAccepts_iff.1 accepted
  exact (wellFormed_iff_fieldsOf i).2 (by omega)

/-! ### Decode, then encode (30_encoding.md R73) -/

/-- A canonical word is its six fields: no bit is lost. -/
theorem packFields_slices {w : Word} (canonical : slice w 31 24 = 0) :
    packFields (slice w 23 19) (slice w 17 13) (slice w 11 7) (slice w 6 0) (slice w 18 18) (slice w 12 12) = w := by
  apply BitVec.eq_of_toNat_eq
  rw [packFields_toNat (slice_lt w 23 19) (slice_lt w 17 13) (slice_lt w 11 7) (slice_lt w 6 0) (slice_lt w 18 18)
    (slice_lt w 12 12)]
  have bound := w.isLt
  simp only [slice] at canonical ⊢
  omega

theorem encodeTriple_decodeFields {w : Word} (canonical : slice w 31 24 = 0) :
    encodeTriple (decodeFields w).opcode (decodeFields w).regA.idx (decodeFields w).regB.idx (decodeFields w).regR
      (decodeFields w).regA.mode (decodeFields w).regB.mode = .ok w := by
  have packed := encodeTriple_natCast (slice_lt w 23 19) (slice_lt w 17 13) (slice_lt w 11 7) (slice_lt w 6 0)
    (slice_lt w 18 18) (slice_lt w 12 12)
  rw [packFields_slices canonical] at packed
  simpa only [decodeFields, operandOf_idx, operandOf_mode _ (slice_lt w 18 18), operandOf_mode _ (slice_lt w 12 12)]
    using packed

/-- Settles O6: the fields of a packed word are those packed, and a canonical word is its fields packed. -/
theorem fieldsRoundTrip : Obligations.FieldsRoundTrip :=
  ⟨fun _ _ _ _ _ _ ho ha hb hl hm hn => ⟨_, encodeTriple_natCast ho ha hb hl hm hn,
      encodeOffset_natCast ho ha hb hl hm hn, decodeFields_packFields ho ha hb hl hm hn⟩,
    fun _ canonical => ⟨encodeTriple_decodeFields canonical, encodeTriple_decodeFields canonical⟩⟩

/-! ### What the engine's decode refuses (30_encoding.md R74, R75) -/

theorem decode_nonCanonical {w : Word} (h : slice w 31 24 ≠ 0) : decode w = .error (.nonCanonicalWord w) := if_pos h

theorem decode_canonical {w : Word} (h : slice w 31 24 = 0) : decode w = instrOfFields (decodeFields w) :=
  if_neg (not_not.2 h)

theorem instrOfFields_opcode {d : Fields} {i : Instr} (h : instrOfFields d = .ok i) : i.opcode = d.opcode := by
  obtain ⟨high, opcode, regA, regB, regR, operand⟩ := d
  unfold instrOfFields at h
  split at h <;> cases h <;> symm <;> assumption

/-- Settles O9: the two checks in their order, and a word that passes both names a well-formed instruction. -/
theorem decodeRefusesExactlyTheIllegalWords : Obligations.DecodeRefusesExactlyTheIllegalWords := by
  intro w
  split
  · rename_i high
    exact decode_nonCanonical high
  · rename_i canonical
    have fields : decode w = instrOfFields (decodeFields w) := decode_canonical (not_not.1 canonical)
    split
    · rename_i reserved
      exact fields.trans (instrOfFields_reserved reserved)
    · rename_i defined
      cases decoded : decode w with
      | error x =>
        obtain ⟨high, -⟩ | ⟨reserved, -⟩ := decode_error decoded
        · exact absurd high canonical
        · exact absurd reserved defined
      | ok i => exact ⟨i, rfl, decode_wellFormed decoded, instrOfFields_opcode (fields.symm.trans decoded)⟩

/-! ### What the engine's decode ignores (30_encoding.md R76) -/

/-- A slice within a slice: words that agree on bits `hi` to `lo` agree on every range between them. -/
theorem slice_eq_of_slice_eq {w v : Word} {hi lo hi' lo' : Nat} (h : slice w hi lo = slice v hi lo)
    (below : hi' ≤ hi) (above : lo ≤ lo') : slice w hi' lo' = slice v hi' lo' := by
  have bits (j : Nat) (from_lo : lo ≤ j) (to_hi : j ≤ hi) : w.toNat.testBit j = v.toNat.testBit j := by
    have at_j := congrArg (Nat.testBit · (j - lo)) h
    simpa [slice, Nat.testBit_mod_two_pow, Nat.testBit_div_two_pow, Nat.sub_add_cancel from_lo,
      show j - lo < hi + 1 - lo by omega] using at_j
  refine Nat.eq_of_testBit_eq fun j => ?_
  simp only [slice, Nat.testBit_mod_two_pow, Nat.testBit_div_two_pow]
  by_cases inside : j < hi' + 1 - lo'
  · rw [bits (j + lo') (by omega) (by omega)]
  · simp [inside]

/-- Bits 31 to 19 of a canonical word are its opcode's number. -/
theorem decode_of_head {w : Word} {n : Nat} (head : slice w 31 19 = n) (hn : n < 32) :
    decode w = instrOfFields { decodeFields w with opcode := n } := by
  have bound := w.isLt
  simp only [slice] at head
  have canonical : slice w 31 24 = 0 := by simp only [slice]; omega
  have opcode : slice w 23 19 = n := by simp only [slice]; omega
  rw [decode_canonical canonical, ← opcode]
  rfl

theorem decode_lw {w : Word} (head : slice w 31 19 = 2) : decode w =
    .ok (.lw (slice w 17 13) (operandOf (slice w 12 12) (slice w 11 7)) (slice w 6 0)) := by
  rw [decode_of_head head (by decide), ← operandOf_idx (slice w 18 18) (slice w 17 13)]
  rfl

theorem decode_cmp {w : Word} (head : slice w 31 19 = 16) :
    decode w = .ok (.cmp (slice w 17 13) (slice w 6 0)) := by
  rw [decode_of_head head (by decide), ← operandOf_idx (slice w 18 18) (slice w 17 13)]
  rfl

theorem decode_jalr {w : Word} (head : slice w 31 19 = 5) : decode w =
    .ok (.jalr (operandOf (slice w 18 18) (slice w 17 13)) (operandOf (slice w 12 12) (slice w 11 7))) :=
  decode_of_head head (by decide)

theorem decode_inc {w : Word} (head : slice w 31 19 = 8) :
    decode w = .ok (.inc (operandOf (slice w 18 18) (slice w 17 13))) :=
  decode_of_head head (by decide)

/-- An opcode of no operand: its number alone says the instruction. -/
theorem decode_no_operand {w : Word} {n : Nat} (head : slice w 31 19 = n) (h : n = 6 ∨ n = 7 ∨ n = 17 ∨ n = 18) :
    decode w = instrOfFields ⟨0, n, .untagged 0, .untagged 0, 0, 0⟩ := by
  rw [decode_of_head head (by omega)]
  obtain rfl | rfl | rfl | rfl := h <;> rfl

/-- Settles O10: each decode is a function of the opcode and the fields its handler reads. -/
theorem ignoredFieldsAreDontCare : Obligations.IgnoredFieldsAreDontCare := by
  intro w v same
  refine ⟨fun head read => ?_, fun head readA readR => ?_, fun head read => ?_, fun head read => ?_, fun head => ?_⟩
  · have field {hi lo : Nat} (below : hi ≤ 17) : slice w hi lo = slice v hi lo :=
      slice_eq_of_slice_eq read below lo.zero_le
    rw [decode_lw head, decode_lw (same ▸ head), field (by decide), field (by decide), field (by decide),
      field (by decide)]
  · rw [decode_cmp head, decode_cmp (same ▸ head), readA, readR]
  · have field {hi lo : Nat} (below : hi ≤ 18) (above : 7 ≤ lo) : slice w hi lo = slice v hi lo :=
      slice_eq_of_slice_eq read below above
    rw [decode_jalr head, decode_jalr (same ▸ head), field (by decide) (by decide), field (by decide) (by decide),
      field (by decide) (by decide), field (by decide) (by decide)]
  · have field {hi lo : Nat} (below : hi ≤ 18) (above : 13 ≤ lo) : slice w hi lo = slice v hi lo :=
      slice_eq_of_slice_eq read below above
    rw [decode_inc head, decode_inc (same ▸ head), field (by decide) (by decide), field (by decide) (by decide)]
  · rw [decode_no_operand rfl head, decode_no_operand same.symm head]

/-! ### The worked words (30_encoding.md R79, R80) -/

/-- Settles O11: fixed words, evaluated; the engine's decode follows the records. -/
theorem specWordsDecodeAsWritten : Obligations.SpecWordsDecodeAsWritten := by
  unfold Obligations.SpecWordsDecodeAsWritten
  decide

end Sys2Proof.Proofs

/-! The assembler of 30_encoding.md R82 to R87: a normalised source has the lines it was made of, an instruction line
has the word of its shape, and an image is the words of the lines. -/

namespace Sys2Proof.Proofs

open Sys2Proof Sys2Proof.Machine

/-! ### Splitting and joining -/

theorem splitWhere_eq_splitOnP (sep : Char → Bool) (cs : List Char) : splitWhere sep cs = cs.splitOnP sep := by
  induction cs with
  | nil => rfl
  | cons c cs ih =>
    rw [splitWhere, List.splitOnP_cons_eq_if_modifyHead, ih]
    cases pieces : cs.splitOnP sep with
    | nil => exact absurd pieces (List.splitOnP_ne_nil sep cs)
    | cons p ps => rfl

/-- Every character of a piece is one of the text's, and no separator. -/
theorem of_mem_splitWhere {sep : Char → Bool} {cs piece : List Char} (h : piece ∈ splitWhere sep cs) {c : Char}
    (hc : c ∈ piece) : c ∈ cs ∧ sep c = false := by
  induction cs generalizing piece with
  | nil =>
    obtain rfl := List.mem_singleton.1 h
    cases hc
  | cons d cs ih =>
    have later {p : List Char} (hp : p ∈ splitWhere sep cs) (hcp : c ∈ p) : c ∈ d :: cs ∧ sep c = false :=
      (ih hp hcp).imp_left (List.mem_cons_of_mem d)
    rw [splitWhere] at h
    split at h
    · obtain rfl | h := List.mem_cons.1 h
      · cases hc
      · exact later h hc
    · rename_i kept
      have first : c = d → c ∈ d :: cs ∧ sep c = false := by rintro rfl; simpa using kept
      cases pieces : splitWhere sep cs with
      | nil =>
        rw [pieces] at h
        obtain rfl := List.mem_singleton.1 h
        exact first (List.mem_singleton.1 hc)
      | cons p ps =>
        rw [pieces] at h later
        obtain rfl | h := List.mem_cons.1 h
        · exact (List.mem_cons.1 hc).elim first (later List.mem_cons_self)
        · exact later (List.mem_cons_of_mem p h) hc

/-- Splitting undoes joining, where no piece holds a separator. -/
theorem splitWhere_intercalate {sep : Char → Bool} {s : Char} (hs : sep s = true) {pieces : List (List Char)}
    (nonempty : pieces ≠ []) (free : ∀ p ∈ pieces, ∀ c ∈ p, sep c = false) :
    splitWhere sep ([s].intercalate pieces) = pieces := by
  rw [splitWhere_eq_splitOnP]
  induction pieces with
  | nil => exact absurd rfl nonempty
  | cons p ps ih =>
    obtain ⟨hp, hps⟩ := List.forall_mem_cons.1 free
    cases ps with
    | nil => rw [List.intercalate_singleton, List.splitOnP_eq_singleton hp]
    | cons q qs =>
      rw [List.intercalate_cons_cons, List.append_assoc, List.singleton_append,
        List.splitOnP_append_cons_of_forall_mem hp s hs, ih (List.cons_ne_nil q qs) hps]

/-- A joined text has the characters of its pieces and the separator. -/
theorem of_mem_intercalate {s c : Char} {pieces : List (List Char)} (h : c ∈ [s].intercalate pieces) :
    c = s ∨ ∃ p ∈ pieces, c ∈ p := by
  induction pieces with
  | nil => cases h
  | cons p ps ih =>
    cases ps with
    | nil => exact .inr ⟨p, List.mem_cons_self, by simpa using h⟩
    | cons q qs =>
      rw [List.intercalate_cons_cons, List.append_assoc, List.mem_append, List.singleton_append, List.mem_cons] at h
      obtain here | rfl | later := h
      · exact .inr ⟨p, List.mem_cons_self, here⟩
      · exact .inl rfl
      · exact (ih later).imp_right fun ⟨t, ht, hc⟩ => ⟨t, List.mem_cons_of_mem p ht, hc⟩

/-! ### Normalised lines (30_encoding.md R82) -/

/-- What a token of a source is: some characters, none of them white space or the start of a comment. -/
structure IsToken (t : Token) : Prop where
  nonempty : t ≠ []
  plain : ∀ c ∈ t, c.isWhitespace = false ∧ c ≠ ';'

theorem isToken_of_mem_lineTokens {line : List Char} {t : Token} (h : t ∈ lineTokens line) : IsToken t := by
  obtain ⟨mem, nonempty⟩ := List.mem_filter.1 h
  refine ⟨by simpa using nonempty, fun c hc => ?_⟩
  obtain ⟨inLine, plain⟩ := of_mem_splitWhere mem hc
  exact ⟨plain, by simpa using List.mem_takeWhile_imp inLine⟩

/-- A line of a source has a token, and tokens alone. -/
theorem of_mem_sourceLines {text : List Char} {l : List Token} (h : l ∈ sourceLines text) :
    l ≠ [] ∧ ∀ t ∈ l, IsToken t := by
  obtain ⟨mem, nonempty⟩ := List.mem_filter.1 h
  obtain ⟨line, -, rfl⟩ := List.mem_map.1 mem
  exact ⟨by simpa using nonempty, fun t ht => isToken_of_mem_lineTokens ht⟩

/-- A normalised line: its tokens, one space between them. -/
def joinLine (l : List Token) : List Char := [' '].intercalate l

/-- A normalised text: its lines, one line end between them. -/
def joinLines (ls : List (List Token)) : List Char := ['\n'].intercalate (ls.map joinLine)

theorem normalise_eq (text : List Char) : normalise text = joinLines (sourceLines text) := rfl

/-- A joined line has only the characters of tokens and the space between them. -/
theorem of_mem_joinLine {l : List Token} (tokens : ∀ t ∈ l, IsToken t) {c : Char} (h : c ∈ joinLine l) :
    c ≠ ';' ∧ c ≠ '\n' := by
  obtain rfl | ⟨t, ht, hc⟩ := of_mem_intercalate h
  · decide
  · obtain ⟨plain, comment⟩ := (tokens t ht).plain c hc
    exact ⟨comment, by rintro rfl; exact absurd plain (by decide)⟩

theorem lineTokens_joinLine {l : List Token} (nonempty : l ≠ []) (tokens : ∀ t ∈ l, IsToken t) :
    lineTokens (joinLine l) = l := by
  have uncommented : (joinLine l).takeWhile (fun c => c ≠ ';') = joinLine l :=
    List.takeWhile_eq_self_iff.2 fun c hc => by simpa using (of_mem_joinLine tokens hc).1
  have split : splitWhere Char.isWhitespace (joinLine l) = l :=
    splitWhere_intercalate (by decide) nonempty fun t ht c hc => ((tokens t ht).plain c hc).1
  rw [lineTokens, uncommented, split]
  exact List.filter_eq_self.2 fun t ht => by simpa using (tokens t ht).nonempty

/-- The lines of a joined text are those joined; without a line the text is empty and has none. -/
theorem sourceLines_joinLines {ls : List (List Token)} (lines : ∀ l ∈ ls, l ≠ [] ∧ ∀ t ∈ l, IsToken t) :
    sourceLines (joinLines ls) = ls := by
  obtain rfl | nonempty := eq_or_ne ls []
  · rfl
  · have split : splitWhere (fun c => c = '\n') (joinLines ls) = ls.map joinLine := by
      refine splitWhere_intercalate (by decide) (mt List.map_eq_nil_iff.1 nonempty) fun p hp c hc => ?_
      obtain ⟨l, hl, rfl⟩ := List.mem_map.1 hp
      simpa using (of_mem_joinLine (lines l hl).2 hc).2
    have tokens : (ls.map joinLine).map lineTokens = ls := by
      rw [List.map_map]
      exact (List.map_congr_left fun l hl => lineTokens_joinLine (lines l hl).1 (lines l hl).2).trans (List.map_id ls)
    rw [sourceLines, split, tokens]
    exact List.filter_eq_self.2 fun l hl => by simpa using (lines l hl).1

/-- Normalising keeps the lines and their tokens. -/
theorem sourceLines_normalise (text : List Char) : sourceLines (normalise text) = sourceLines text :=
  sourceLines_joinLines fun _ h => of_mem_sourceLines h

/-- Settles O52: a normalised text is a function of its lines, which normalising keeps. -/
theorem normalisationIsIdempotent : Obligations.NormalisationIsIdempotent := by
  intro text
  rw [normalise_eq (normalise text), sourceLines_normalise, normalise_eq]

/-! ### Instruction lines (30_encoding.md R69, R84) -/

theorem operandArg_register {labels : List (Token × Nat)} {c : Char} {n : Nat} (h : digitValue c = some n)
    (hn : n < 8) : operandArg labels ['r', c] = .ok (.untagged n) := by
  rw [operandArg, registerToken_digit h hn]

theorem operandArg_label {labels : List (Token × Nat)} {c : Char} {cs : Token} {address : Nat}
    (h : labels.lookup ('$' :: c :: cs) = some address) :
    operandArg labels ('$' :: c :: cs) = .ok (.tagged address) := by
  rw [operandArg, registerToken_label, h]
  rfl

/-- Settles O53: a mnemonic's line is its opcode's, and its arguments have their values. -/
theorem instructionLinesHaveTheWordOfTheirShape : Obligations.InstructionLinesHaveTheWordOfTheirShape := by
  intro labels x y z a b hx hy
  refine ⟨?_, fun c n => operandArg_register, fun c cs address => operandArg_label⟩
  intro d hd
  simp only [assembleBody_mnemonic labels hd]
  obtain ⟨id, shape, mnemonic⟩ := d
  refine ⟨?_, ?_, ?_, fun r => ?_, fun n => ?_⟩
  · rintro rfl
    exact assembleInstr_none labels id mnemonic
  · rintro rfl
    rw [assembleInstr_single, hx]
    rfl
  · rintro rfl
    rw [assembleInstr_pair, hx, hy]
    rfl
  · rintro rfl hz
    rw [assembleInstr_pairDest, hx, hy, hz]
    rfl
  · rintro rfl hz
    rw [assembleInstr_pairOffset, hx, hy, hz]
    rfl

/-! ### Images (30_encoding.md R87) -/

section Image

variable {n : Nat} {text : List Char} {labels : List (Token × Nat)} {ws : List Word}
  (hl : assembleLines labels ((sourceLines text).map takeLabel) = .ok ws)

include hl

theorem assembled_length : ws.length = (sourceLines text).length := by
  simpa using (assembleLines_eq_ok hl).1

theorem assembled_word {k : Nat} {line : List Token} (hk : (sourceLines text)[k]? = some line) :
    ∃ w : Word, ws[k]? = some w ∧ assembleBody labels (takeLabel line).body = .ok w :=
  (assembleLines_eq_ok hl).2 k (takeLabel line) (by simp [hk])

end Image

/-- A label's value is the index of its line (30_encoding.md R83). -/
theorem collected_label {text : List Char} {labels : List (Token × Nat)} {k : Nat} {line : List Token} {t : Token}
    (hc : collectLabels 0 [] ((sourceLines text).map takeLabel) = .ok labels)
    (hk : (sourceLines text)[k]? = some line) (ht : (takeLabel line).label = some t) : labels.lookup t = some k := by
  simpa using (collectLabels_eq_ok hc).2 k (takeLabel line) t (by simp [hk]) ht

/-- An image of `n` words is the words of the lines, which fit, and zeros. -/
theorem image_of_assemble {n : Nat} {text : List Char} {words : List Word} (h : assemble n text = .ok words) :
    words.length = n ∧ (sourceLines text).length ≤ n ∧
      (∃ labels, ∃ ws : List Word, collectLabels 0 [] ((sourceLines text).map takeLabel) = .ok labels ∧
        assembleLines labels ((sourceLines text).map takeLabel) = .ok ws ∧ ws = words.take (sourceLines text).length) ∧
      ∀ k, (sourceLines text).length ≤ k → k < n → words[k]? = some 0 := by
  obtain ⟨labels, ws, hc, hl, fits, rfl⟩ := assemble_eq_ok.1 h
  rw [← assembled_length hl]
  refine ⟨by simp [fits], fits, ⟨labels, ws, hc, hl, by simp⟩, fun k above inRam => ?_⟩
  rw [List.getElem?_append_right above, List.getElem?_replicate, if_pos (by omega)]

/-- A source of more lines than words of RAM has no image. -/
theorem no_image_of_too_many_lines {n : Nat} {text : List Char} (h : n < (sourceLines text).length) :
    ∃ e, assemble n text = .error e := by
  cases image : assemble n text with
  | error e => exact ⟨e, rfl⟩
  | ok words =>
    obtain ⟨-, fits, -⟩ := image_of_assemble image
    exact absurd h fits.not_gt

/-- Settles O51, from the words of the lines, the values of the labels and what an image is. -/
theorem assembledImageIsPaddedToRam : Obligations.AssembledImageIsPaddedToRam := fun _ _ =>
  ⟨fun labels ws hc hl =>
      ⟨assembled_length hl, fun _ _ hk => assembled_word hl hk, fun _ _ _ hk ht => collected_label hc hk ht,
        fun fits => assemble_eq_ok.2 ⟨labels, ws, hc, hl, fits, rfl⟩, assemble_too_large hc hl⟩,
    fun _ => image_of_assemble, no_image_of_too_many_lines⟩

end Sys2Proof.Proofs

/-! The execution engine and its host (40_execution_engine.md): the step at a fetched word, the terminal states, and
what each of the six host operations can do to a session. -/

namespace Sys2Proof.Proofs

open Sys2Proof Sys2Proof.Machine

/-! ### The step at a fetched word (40_execution_engine.md R93 to R96) -/

/-- Settles O12: the fetch reads the word at `pc`, and the step dispatches what it decodes to. -/
theorem stepRunsTheDecodedInstruction : Obligations.StepRunsTheDecodedInstruction := fun _ _ running inRam decoded =>
  step_of_fetched_instruction running (fetch_in_ram inRam) decoded

theorem step_of_refused_word {s : State} {w : Word} {x : DecodeError} (running : s.status = .running)
    (fetched : fetch s = .ok w) (refused : decode w = .error x) :
    step s = .next (raise (s.setIr w) (abortOfDecode x)) := by
  simp only [step, running, fetched, refused]

/-- A canonical word of a reserved opcode is refused (30_encoding.md R74). -/
theorem decode_reserved {w : Word} (canonical : slice w 31 24 = 0) (reserved : 19 ≤ slice w 23 19) :
    decode w = .error (.unknownOpcode (slice w 23 19)) :=
  (decode_canonical canonical).trans (instrOfFields_reserved reserved)

/-- Settles O15: the two refusals of the decoder, in their order, as the step records them. -/
theorem refusedWordsAbortAtDecode : Obligations.RefusedWordsAbortAtDecode := fun _ running inRam =>
  ⟨fun high => step_of_refused_word running (fetch_in_ram inRam) (decode_nonCanonical high),
    fun canonical reserved =>
      step_of_refused_word running (fetch_in_ram inRam) (decode_reserved canonical reserved)⟩

/-! ### The terminal states (40_execution_engine.md R91) -/

theorem step_of_not_running {s : State} (stopped : s.status ≠ .running) : step s = .next s := by
  obtain ⟨t, h⟩ := step_total s
  exact h.trans (congrArg Host.Outcome.next (step_eq_self_of_not_running h stopped))

/-- A state that a step leaves as it is stays for any number of steps. -/
theorem run_of_step_eq_self {M : Host.Core} {s : M.State} (fixed : M.step s = .next s) (k : Nat) :
    M.run k s = .next s := by
  induction k with
  | zero => rfl
  | succ k ih => rw [Host.Core.run, fixed]; exact ih

theorem run_of_not_running {s : State} (stopped : s.status ≠ .running) (k : Nat) :
    Host.Core.run Sys2Proof.core k s = .next s :=
  run_of_step_eq_self (M := Sys2Proof.core) (step_of_not_running stopped) k

theorem safe_of_halted {s : State} (halted : s.status = .halted) : s.Safe := by simp [State.Safe, halted]

/-! ### What a host operation can do (40_execution_engine.md R115 to R119) -/

/-- What the host may do to a machine before the first `Step`: load an image of RAM's size, or preset a register that
exists or the flags (40_execution_engine.md R115). -/
inductive Prepares (s : State) : HostOp → State → Prop
  | load {bytes : List Byte} (size : bytes.length = s.ramWords * Config.wordBytes) :
      Prepares s (.loadImage (some bytes)) (s.setMem (writeBytes s.mem 0 bytes))
  | register (i : Fin 8) (v : Word) : Prepares s (.presetRegister i v) (s.setReg i v)
  | flags (f : Flags) : Prepares s (.presetFlags f) (s.setFlags f)

theorem hostDo_step_of_next {p : Session} {t : State} (h : step p.machine = .next t) :
    hostDo p .step = (⟨t, true⟩, .status t.status) := by
  simp only [hostDo, hostStep, h]

section Preparation

variable {p : Session}

theorem hostLoadImage_after (h : p.stepped = true) (file : Option (List Byte)) :
    hostLoadImage p file = (p, .refusedAfterStep) := if_pos h

theorem hostPresetRegister_after (h : p.stepped = true) (n : Nat) (v : Word) :
    hostPresetRegister p n v = (p, .refusedAfterStep) := if_pos h

theorem hostPresetFlags_after (h : p.stepped = true) (f : Flags) :
    hostPresetFlags p f = (p, .refusedAfterStep) := if_pos h

theorem hostLoadImage_before (h : p.stepped = false) (bytes : List Byte) :
    hostLoadImage p (some bytes) = if bytes.length = p.machine.ramWords * Config.wordBytes then
      (⟨p.machine.setMem (writeBytes p.machine.mem 0 bytes), false⟩, .done)
    else (p, .loadError .invalidImageSizeError) := if_neg (Bool.eq_false_iff.1 h)

theorem hostLoadImage_missing (h : p.stepped = false) :
    hostLoadImage p none = (p, .loadError .imageNotFoundError) := if_neg (Bool.eq_false_iff.1 h)

theorem hostPresetRegister_before (h : p.stepped = false) {n : Nat} (hn : n < 8) (v : Word) :
    hostPresetRegister p n v = (⟨p.machine.setReg ⟨n, hn⟩ v, false⟩, .done) :=
  (if_neg (Bool.eq_false_iff.1 h)).trans (dif_pos hn)

theorem hostPresetRegister_outside (h : p.stepped = false) {n : Nat} (hn : 8 ≤ n) (v : Word) :
    hostPresetRegister p n v = (p, .refusedRegister n) :=
  (if_neg (Bool.eq_false_iff.1 h)).trans (dif_neg hn.not_gt)

theorem hostPresetFlags_before (h : p.stepped = false) (f : Flags) :
    hostPresetFlags p f = (⟨p.machine.setFlags f, false⟩, .done) := if_neg (Bool.eq_false_iff.1 h)

/-- After the first `Step` only another one or `Reset` can change the session (40_execution_engine.md R116). -/
theorem hostDo_of_stepped {op : HostOp} (stepped : p.stepped = true) (notStep : op ≠ .step) (notReset : op ≠ .reset) :
    (hostDo p op).1 = p := by
  cases op with
  | reset => exact absurd rfl notReset
  | step => exact absurd rfl notStep
  | read => rfl
  | loadImage file => rw [hostDo, hostLoadImage_after stepped]
  | presetRegister n v => rw [hostDo, hostPresetRegister_after stepped]
  | presetFlags f => rw [hostDo, hostPresetFlags_after stepped]

/-- Before the first `Step` a load or a preset prepares the machine, or is answered with an error and changes
nothing. -/
theorem hostDo_of_fresh {op : HostOp} (fresh : p.stepped = false) (notStep : op ≠ .step) (notReset : op ≠ .reset) :
    (hostDo p op).1 = p ∨ ∃ s, Prepares p.machine op s ∧ (hostDo p op).1 = ⟨s, false⟩ := by
  cases op with
  | reset => exact absurd rfl notReset
  | step => exact absurd rfl notStep
  | read => exact .inl rfl
  | loadImage file =>
    rw [hostDo]
    cases file with
    | none => exact .inl (by rw [hostLoadImage_missing fresh])
    | some bytes =>
      rw [hostLoadImage_before fresh]
      split
      · exact .inr ⟨_, .load ‹_›, rfl⟩
      · exact .inl rfl
  | presetRegister n v =>
    rw [hostDo]
    obtain hn | hn := lt_or_ge n 8
    · exact .inr ⟨_, .register ⟨n, hn⟩ v, by rw [hostPresetRegister_before fresh hn]⟩
    · exact .inl (by rw [hostPresetRegister_outside fresh hn])
  | presetFlags f => exact .inr ⟨_, .flags f, by rw [hostDo, hostPresetFlags_before fresh]⟩

end Preparation

/-- A host operation, inverted: it resets, it steps, it changes nothing, or it prepares a machine that has not
stepped. -/
theorem hostDo_cases (p : Session) (op : HostOp) :
    (op = .reset ∧ (hostDo p op).1 = Session.boot p.machine.ramWords) ∨
    (op = .step ∧ ∃ t, step p.machine = .next t ∧ (hostDo p op).1 = ⟨t, true⟩) ∨
    (hostDo p op).1 = p ∨
    (p.stepped = false ∧ ∃ s, Prepares p.machine op s ∧ (hostDo p op).1 = ⟨s, false⟩) := by
  by_cases isReset : op = .reset
  · exact .inl ⟨isReset, by rw [isReset]; rfl⟩
  by_cases isStep : op = .step
  · obtain ⟨t, h⟩ := step_total p.machine
    exact .inr (.inl ⟨isStep, t, h, by rw [isStep, hostDo_step_of_next h]⟩)
  cases stepped : p.stepped with
  | true => exact .inr (.inr (.inl (hostDo_of_stepped stepped isStep isReset)))
  | false => exact .inr (.inr ((hostDo_of_fresh stepped isStep isReset).imp_right fun prepared => ⟨rfl, prepared⟩))

/-- Loads and presets name neither `pc` nor `ir` nor the status (40_execution_engine.md R116). -/
theorem Prepares.keeps_control {s t : State} {op : HostOp} (h : Prepares s op t) :
    t.pc = s.pc ∧ t.ir = s.ir ∧ t.status = s.status := by
  cases h <;> exact ⟨rfl, rfl, rfl⟩

/-- Only `Step` and `Reset` can change the control state (40_execution_engine.md R116). -/
theorem hostDo_keeps_control {p : Session} {op : HostOp} (notStep : op ≠ .step) (notReset : op ≠ .reset) :
    (hostDo p op).1.machine.pc = p.machine.pc ∧ (hostDo p op).1.machine.ir = p.machine.ir ∧
      (hostDo p op).1.machine.status = p.machine.status := by
  obtain ⟨reset, -⟩ | ⟨isStep, -⟩ | same | ⟨-, s, prepared, eq⟩ := hostDo_cases p op
  · exact absurd reset notReset
  · exact absurd isStep notStep
  · rw [same]; exact ⟨rfl, rfl, rfl⟩
  · rw [eq]; exact prepared.keeps_control

theorem hostDo_step_of_not_running {p : Session} (stopped : p.machine.status ≠ .running) :
    hostDo p .step = (⟨p.machine, true⟩, .status p.machine.status) :=
  hostDo_step_of_next (step_of_not_running stopped)

/-! ### The invariant under the host's operations -/

/-- Every entry a write of bytes leaves was there before, or lies below the end of the range. -/
theorem mem_writeBytes {m : Memory} {a : Nat} {bytes : List Byte} {c : Host.Cell} (h : c ∈ writeBytes m a bytes) :
    c ∈ m ∨ c.1 < a + bytes.length := by
  induction bytes generalizing m a with
  | nil => exact .inl h
  | cons b rest ih =>
    rw [List.length_cons]
    obtain written | below := ih h
    · obtain old | rfl := mem_writeByte written
      · exact .inl old
      · exact .inr (by dsimp only; omega)
    · exact .inr (by omega)

/-- Whether a fault record agrees depends on `pc`, `ir` and RAM_WORDS alone. -/
theorem recordAgrees_congr {s t : State} (pc : t.pc = s.pc) (ir : t.ir = s.ir) (ramWords : t.ramWords = s.ramWords)
    (f : Abort) : recordAgrees t f ↔ recordAgrees s f := by
  cases f <;> simp only [recordAgrees, pc, ir, ramWords]

theorem Prepares.keeps_ramWords {s t : State} {op : HostOp} (h : Prepares s op t) : t.ramWords = s.ramWords := by
  cases h <;> rfl

theorem Prepares.keeps_record {s t : State} {op : HostOp} (h : Prepares s op t) (inv : s.Inv) (f : Abort)
    (aborted : t.status = .aborted f) : recordAgrees t f := by
  obtain ⟨pc, ir, status⟩ := h.keeps_control
  exact (recordAgrees_congr pc ir h.keeps_ramWords f).2 (inv.record_agrees f (status ▸ aborted))

/-- A load writes only the bytes of RAM, since its image has exactly their number; a preset writes none. -/
theorem Prepares.keeps_inv {s t : State} {op : HostOp} (h : Prepares s op t) (inv : s.Inv) : t.Inv := by
  have record := h.keeps_record inv
  cases h with
  | @load bytes size =>
    have imageInRam : 0 + bytes.length = 4 * s.ramWords := by rw [size, Nat.zero_add, Nat.mul_comm]
    exact { inv with
      memory_wf := memoryWf_writeBytes 0 bytes inv.memory_wf
      memory_in_ram := fun c hc => (mem_writeBytes hc).elim (inv.memory_in_ram c) fun below => imageInRam ▸ below
      record_agrees := record }
  | register i v => exact { inv with record_agrees := record }
  | flags f => exact { inv with record_agrees := record }

/-- Settles O4, by the four ways a host operation can go. -/
theorem hostOperationsKeepTheInvariant : Obligations.HostOperationsKeepTheInvariant := by
  intro p op inv
  obtain ⟨-, eq⟩ | ⟨-, t, stepped, eq⟩ | same | ⟨-, s, prepared, eq⟩ := hostDo_cases p op
  · rw [eq]; exact resetWith_inv inv.ram_words_legal
  · rw [eq]; exact everyStepKeepsTheInvariant p.machine t inv stepped
  · rw [same]; exact inv
  · rw [eq]; exact prepared.keeps_inv inv

/-! ### The host's rules (40_execution_engine.md R115 to R118) -/

/-- Settles O16: a step leaves a terminal state as it is, so every run and the host's `Step` do, and the session has
stepped, so the host prepares nothing. -/
theorem terminalStatesAreFinal : Obligations.TerminalStatesAreFinal := by
  intro s k stopped
  have unchanged : hostDo ⟨s, true⟩ .step = (⟨s, true⟩, .status s.status) := hostDo_step_of_not_running stopped
  refine ⟨run_of_not_running stopped k, fun halted => ⟨s, run_of_not_running stopped k, safe_of_halted halted⟩,
    unchanged, fun op notReset => ?_⟩
  by_cases isStep : op = .step
  · rw [isStep, unchanged]
  · exact hostDo_of_stepped rfl isStep notReset

/-- Settles O47, from the replies of the three preparations before and after the first `Step`. -/
theorem presetsEndWithTheFirstStep : Obligations.PresetsEndWithTheFirstStep := by
  intro p n v f file
  refine ⟨fun stepped => ?_, fun fresh => ?_, fun op notStep notReset => ?_⟩
  · exact ⟨hostPresetRegister_after stepped n v, hostPresetFlags_after stepped f, hostLoadImage_after stepped file⟩
  · exact ⟨hostPresetFlags_before fresh f, fun hn => hostPresetRegister_before fresh hn v,
      fun hn => hostPresetRegister_outside fresh hn v⟩
  · obtain ⟨pc, ir, status⟩ := hostDo_keeps_control (p := p) notStep notReset
    exact ⟨pc, ir, status, fun stepped => hostDo_of_stepped stepped notStep notReset⟩

/-- Settles O48: the machine has a next state, which `Step` takes over with its status. -/
theorem hostStepPerformsOneStep : Obligations.HostStepPerformsOneStep := by
  intro p
  obtain ⟨t, h⟩ := step_total p.machine
  exact ⟨t, h, hostDo_step_of_next h, step_eq_self_of_not_running h⟩

/-- Settles O49: `Reset` boots the machine afresh; in a terminal state `Step` changes nothing of the machine, and the
other operations never change the status. -/
theorem hostResetStartsAfresh : Obligations.HostResetStartsAfresh := by
  intro p
  refine ⟨rfl, rfl, rfl, fun stopped op notReset => ?_⟩
  by_cases isStep : op = .step
  · rw [isStep, hostDo_step_of_not_running stopped]
  · obtain ⟨-, -, status⟩ := hostDo_keeps_control (p := p) isStep notReset
    exact status

theorem isHalted_iff (s : State) : s.isHalted = true ↔ s.status = .halted := decide_eq_true_iff

theorem observe_ram_length (s : State) : (observe s).ram.length = s.ramWords := by
  rw [observe, List.length_map, List.length_range]

theorem observe_ram_word {s : State} {k : Nat} (inRam : k < s.ramWords) :
    (observe s).ram[k]? = some (readWord s.mem k) := by
  rw [observe, List.getElem?_map, List.getElem?_range inRam, Option.map_some]

/-- Settles O50: the copy `observe` makes has each part of the state. -/
theorem readShowsTheWholeState : Obligations.ReadShowsTheWholeState := fun p =>
  ⟨observe p.machine, rfl, rfl, rfl, rfl, rfl, rfl, isHalted_iff p.machine, observe_ram_length p.machine,
    fun _ inRam => observe_ram_word inRam⟩

end Sys2Proof.Proofs

/-! Arithmetic, logic and compare (41_alu.md): the encoding of an instruction from its row of the opcode table, what an
instruction does where the result of its handler is known, and the rules of the eleven instructions. -/

namespace Sys2Proof.Proofs

open Sys2Proof Sys2Proof.Machine

/-! ### The row of an instruction (30_encoding.md R62, R67) -/

/-- A word that decodes to an instruction is canonical and carries its opcode. -/
theorem slices_of_decode {w : Word} {i : Instr} (h : decode w = .ok i) :
    slice w 31 24 = 0 ∧ slice w 23 19 = i.opcode := by
  have canonical : slice w 31 24 = 0 := by
    by_contra high
    cases (decode_nonCanonical high).symm.trans h
  have fields : instrOfFields (decodeFields w) = .ok i := (decode_canonical canonical).symm.trans h
  exact ⟨canonical, (instrOfFields_opcode fields).symm⟩

theorem wellFormed_of_encode {w : Word} {i : Instr} (h : encode i = .ok w) : i.wellFormed = true := by
  by_contra ill
  cases (illFormedInstructionsHaveNoWord i (Bool.eq_false_iff.2 ill)).symm.trans h

theorem decode_of_encode {w : Word} {i : Instr} (h : encode i = .ok w) : decode w = .ok i := by
  obtain ⟨v, encoded, decoded⟩ := decodeOfEncodeIsTheInstruction i (wellFormed_of_encode h)
  obtain rfl : v = w := Except.ok.inj (encoded.symm.trans h)
  exact decoded

/-- The words of an instruction are as its row says, whatever the row. -/
theorem encodedAs_of_row {i : Instr} {shape : OperandShape} {mnemonic : String}
    (row : lookupById i.opcode = some ⟨i.opcode, shape, mnemonic⟩) : EncodedAs i i.opcode shape mnemonic :=
  ⟨row, fun _ h => slices_of_decode (decode_of_encode h)⟩

/-! ### An instruction whose handler's result is known (40_execution_engine.md R97, R98) -/

section Results

variable {s : State} {i : Instr}

theorem raises_of_handler {f : Abort} (h : handlerOf s i = .error f) : Raises i s f := by
  rw [Raises, exec_eq_complete, h]
  rfl

theorem writesRegister_of_handler {r : Nat} {v : Word} (hr : r < 8)
    (h : handlerOf s i = .ok ({ register := some (⟨r, hr⟩, v) }, .seq)) : WritesRegister i s r v := by
  refine ⟨hr, ?_⟩
  rw [exec_eq_complete, h]
  rfl

end Results

/-! ### Two sources, the first before the second (40_execution_engine.md R106) -/

section Sources

variable {s : State} {a b : Operand} {va vb : Word} {f : Abort}

theorem derefs_eq_ok (ha : DerefIs s a va) (hb : DerefIs s b vb) :
    inOrder (resolveDeref s a) (resolveDeref s b) = .ok (va, vb) :=
  inOrder_eq_ok.2 ⟨resolveDeref_eq_ok.2 ha, resolveDeref_eq_ok.2 hb⟩

theorem derefs_eq_error_of_first (fa : DerefRaises s a f) :
    inOrder (resolveDeref s a) (resolveDeref s b) = .error f :=
  inOrder_eq_error.2 (.inl (resolveDeref_eq_error.2 fa))

theorem derefs_eq_error_of_second (ha : DerefIs s a va) (fb : DerefRaises s b f) :
    inOrder (resolveDeref s a) (resolveDeref s b) = .error f :=
  inOrder_eq_error.2 (.inr ⟨va, resolveDeref_eq_ok.2 ha, resolveDeref_eq_error.2 fb⟩)

theorem values_eq_ok (ha : ValueIs s a va) (hb : ValueIs s b vb) :
    inOrder (resolveValue s a) (resolveValue s b) = .ok (va, vb) :=
  inOrder_eq_ok.2 ⟨resolveValue_eq_ok.2 ha, resolveValue_eq_ok.2 hb⟩

theorem values_eq_error_of_first (fa : ValueRaises a f) : inOrder (resolveValue s a) (resolveValue s b) = .error f :=
  inOrder_eq_error.2 (.inl (resolveValue_eq_error.2 fa))

theorem values_eq_error_of_second (ha : ValueIs s a va) (fb : ValueRaises b f) :
    inOrder (resolveValue s a) (resolveValue s b) = .error f :=
  inOrder_eq_error.2 (.inr ⟨va, resolveValue_eq_ok.2 ha, resolveValue_eq_error.2 fb⟩)

end Sources

/-! ### The ways a handler with a destination ends (60_exceptions.md R189) -/

section Alu

variable {s : State} {i : Instr} {p : Except Abort (Word × Word)} {op : Word → Word → Except Abort Word} {r : Nat}
  {va vb v : Word} {f : Abort} (handler : handlerOf s i = aluHandler p op r)

include handler

theorem alu_writes (hp : p = .ok (va, vb)) (hop : op va vb = .ok v) (hr : r < 8) : WritesRegister i s r v :=
  writesRegister_of_handler hr
    (handler.trans (aluHandler_eq_ok.2 ⟨va, vb, v, ⟨r, hr⟩, hp, hop, rfl, rfl⟩))

theorem alu_raises_source (hp : p = .error f) : Raises i s f :=
  raises_of_handler (handler.trans (aluHandler_eq_error.2 (.inl hp)))

theorem alu_raises_operation (hp : p = .ok (va, vb)) (hop : op va vb = .error f) : Raises i s f :=
  raises_of_handler (handler.trans (aluHandler_eq_error.2 (.inr ⟨va, vb, hp, .inl hop⟩)))

theorem alu_raises_destination (hp : p = .ok (va, vb)) (hop : op va vb = .ok v) (hr : 8 ≤ r) :
    Raises i s (.registerIndexOutOfRange r) :=
  raises_of_handler (handler.trans (aluHandler_eq_error.2 (.inr ⟨va, vb, hp, .inr ⟨v, hop, hr, rfl⟩⟩)))

end Alu

/-! ### Dereferenced sources and a result that is always defined -/

/-- The rule of 41_alu.md R120, from the handler an instruction has. -/
theorem derefAluRule_of_handler {s : State} {i : Instr} {a b : Operand} {r : Nat} {result : Word → Word → Word}
    (handler : handlerOf s i =
      aluHandler (inOrder (resolveDeref s a) (resolveDeref s b)) (fun va vb => .ok (result va vb)) r) :
    DerefAluRule i a b r s result :=
  ⟨fun _ _ ha hb => alu_writes handler (derefs_eq_ok ha hb) rfl,
    fun _ fa => alu_raises_source handler (derefs_eq_error_of_first fa),
    fun _ _ ha fb => alu_raises_source handler (derefs_eq_error_of_second ha fb),
    fun _ _ ha hb => alu_raises_destination handler (derefs_eq_ok ha hb) rfl⟩

/-- Settles O22, by the rule of two dereferenced sources. -/
theorem addAddsDereferencedOperands : Obligations.AddAddsDereferencedOperands := fun _ _ _ _ =>
  ⟨encodedAs_of_row rfl, derefAluRule_of_handler rfl⟩

/-- Settles O27, by the rule of two dereferenced sources. -/
theorem andCombinesDereferencedOperands : Obligations.AndCombinesDereferencedOperands := fun _ _ _ _ =>
  ⟨encodedAs_of_row rfl, derefAluRule_of_handler rfl⟩

/-- Settles O28, by the rule of two dereferenced sources. -/
theorem xorCombinesDereferencedOperands : Obligations.XorCombinesDereferencedOperands := fun _ _ _ _ =>
  ⟨encodedAs_of_row rfl, derefAluRule_of_handler rfl⟩

/-- Settles O30: the carry that the handler adds is the flag at the start of the instruction. -/
theorem adcAddsTheCarryIn : Obligations.AdcAddsTheCarryIn := fun _ _ _ _ =>
  ⟨encodedAs_of_row rfl, derefAluRule_of_handler rfl⟩

/-- Settles O31: the borrow that the handler subtracts is the flag at the start of the instruction. -/
theorem sbbSubtractsTheBorrowIn : Obligations.SbbSubtractsTheBorrowIn := fun _ _ _ _ =>
  ⟨encodedAs_of_row rfl, derefAluRule_of_handler rfl⟩

/-- The product of two Words is the low 32 bits of the product of their numbers (41_alu.md R124). -/
theorem word_mul_eq_ofNat (va vb : Word) : va * vb = BitVec.ofNat 32 (va.toNat * vb.toNat) := by
  apply BitVec.eq_of_toNat_eq
  rw [BitVec.toNat_mul, BitVec.toNat_ofNat]

/-- Settles O26: the handler multiplies Words, which keeps the low half. -/
theorem imulKeepsLowHalfOfProduct : Obligations.ImulKeepsLowHalfOfProduct := by
  intro a b r s
  refine ⟨encodedAs_of_row rfl, derefAluRule_of_handler ?_⟩
  simp only [handlerOf, operandsImul, word_mul_eq_ofNat]

/-! ### Sources by value -/

/-- Settles O23: the handler resolves both sources by the value rule. -/
theorem nandCombinesOperandValues : Obligations.NandCombinesOperandValues := by
  intro a b r s
  have handler : handlerOf s (.nand a b r) =
      aluHandler (inOrder (resolveValue s a) (resolveValue s b)) (fun va vb => .ok (~~~(va &&& vb))) r := rfl
  exact ⟨encodedAs_of_row rfl,
    fun _ _ ha hb => alu_writes handler (values_eq_ok ha hb) rfl,
    fun _ fa => alu_raises_source handler (values_eq_error_of_first fa),
    fun _ _ ha fb => alu_raises_source handler (values_eq_error_of_second ha fb),
    fun _ _ ha hb => alu_raises_destination handler (values_eq_ok ha hb) rfl⟩

/-! ### A result that is not always defined: the quotient and the shift -/

theorem quotient_of_ne_zero (pc va : Word) {vb : Word} (h : vb ≠ 0) :
    quotient pc va vb = .ok (BitVec.ofNat 32 (va.toNat / vb.toNat)) := if_neg h

theorem quotient_zero (pc va : Word) : quotient pc va 0 = .error (.divideByZero pc) := if_pos rfl

/-- Settles O25: a divisor that is not 0 has a quotient, and a zero one ends the handler before the destination. -/
theorem idivGivesUnsignedQuotient : Obligations.IdivGivesUnsignedQuotient := by
  intro a b r s
  have handler : handlerOf s (.idiv a b r) =
      aluHandler (inOrder (resolveDeref s a) (resolveDeref s b)) (quotient s.pc) r := rfl
  exact ⟨encodedAs_of_row rfl,
    fun va _ ha hb nonzero => alu_writes handler (derefs_eq_ok ha hb) (quotient_of_ne_zero s.pc va nonzero),
    fun _ fa => alu_raises_source handler (derefs_eq_error_of_first fa),
    fun _ _ ha fb => alu_raises_source handler (derefs_eq_error_of_second ha fb),
    fun va ha hb => alu_raises_operation handler (derefs_eq_ok ha hb) (quotient_zero s.pc va),
    fun va _ ha hb nonzero =>
      alu_raises_destination handler (derefs_eq_ok ha hb) (quotient_of_ne_zero s.pc va nonzero)⟩

/-- A logical shift right divides by a power of two (41_alu.md R127). -/
theorem shiftRight_of_lt (va : Word) {vb : Word} (h : vb.toNat < 32) :
    shiftRight va vb = .ok (BitVec.ofNat 32 (va.toNat / 2 ^ vb.toNat)) := by
  have shifted : va >>> vb.toNat = BitVec.ofNat 32 (va.toNat / 2 ^ vb.toNat) := by
    apply BitVec.eq_of_toNat_eq
    rw [BitVec.toNat_ushiftRight, BitVec.toNat_ofNat, Nat.shiftRight_eq_div_pow,
      Nat.mod_eq_of_lt (Nat.lt_of_le_of_lt (Nat.div_le_self _ _) va.isLt)]
  rw [shiftRight, if_neg h.not_ge, shifted]

theorem shiftRight_of_ge (va : Word) {vb : Word} (h : 32 ≤ vb.toNat) :
    shiftRight va vb = .error (.shiftAmountOutOfRange vb) := if_pos h

/-- Settles O29: an amount below 32 divides, and a larger one ends the handler before the destination. -/
theorem shrShiftsRightLogically : Obligations.ShrShiftsRightLogically := by
  intro a b r s
  have handler : handlerOf s (.shr a b r) =
      aluHandler (inOrder (resolveDeref s a) (resolveDeref s b)) shiftRight r := rfl
  exact ⟨encodedAs_of_row rfl,
    fun va _ ha hb small => alu_writes handler (derefs_eq_ok ha hb) (shiftRight_of_lt va small),
    fun _ fa => alu_raises_source handler (derefs_eq_error_of_first fa),
    fun _ _ ha fb => alu_raises_source handler (derefs_eq_error_of_second ha fb),
    fun va _ ha hb large => alu_raises_operation handler (derefs_eq_ok ha hb) (shiftRight_of_ge va large),
    fun va _ ha hb small => alu_raises_destination handler (derefs_eq_ok ha hb) (shiftRight_of_lt va small)⟩

/-! ### `inc` (41_alu.md R122) -/

theorem incHandler_register (s : State) (d : Fin 8) :
    incHandler s (.untagged d) = .ok ({ register := some (d, s.regs[d] + 1) }, .seq) :=
  bind_eq_ok.2 ⟨d, checkRegister_eq_ok.2 rfl, rfl⟩

theorem incHandler_missing_register (s : State) {n : Nat} (missing : 8 ≤ n) :
    incHandler s (.untagged n) = .error (.registerIndexOutOfRange n) :=
  bind_eq_error.2 (.inl (checkRegister_eq_error.2 ⟨missing, rfl⟩))

theorem incHandler_word {s : State} {n : Nat} {v : Word} (h : WordIs s (zext32 n) v) :
    incHandler s (.tagged n) = .ok ({ ram := some (zext32 n, v + 1) }, .seq) :=
  bind_eq_ok.2 ⟨v, memRead_eq_ok.2 h, rfl⟩

theorem incHandler_outside_ram {s : State} {n : Nat} (outside : s.ramWords ≤ (zext32 n).toNat) :
    incHandler s (.tagged n) = .error (.memoryAddressOutOfRange (zext32 n)) :=
  bind_eq_error.2 (.inl (memRead_eq_error.2 ⟨outside, rfl⟩))

/-- Settles O24, from the four ways the handler of `inc` ends. -/
theorem incAddsOneToRegisterOrRamWord : Obligations.IncAddsOneToRegisterOrRamWord := by
  intro n s
  refine ⟨fun a => encodedAs_of_row rfl, fun v hv => ?_, fun missing => ?_, fun v hv => ?_, fun outside => ?_⟩
  · obtain ⟨hn, rfl⟩ := hv
    exact writesRegister_of_handler hn (incHandler_register s ⟨n, hn⟩)
  · exact raises_of_handler (incHandler_missing_register s missing)
  · rw [exec_eq_complete, handlerOf, incHandler_word hv]
    rfl
  · exact raises_of_handler (incHandler_outside_ram outside)

/-! ### `cmp` (41_alu.md R130) -/

theorem compareFlags_eq (va vb : Word) : compareFlags va vb =
    if va.toNat < vb.toNat then ⟨true, true, false⟩
    else if va.toNat = vb.toNat then ⟨false, false, true⟩ else ⟨false, false, false⟩ := by
  simp only [compareFlags, BitVec.toNat_inj]

theorem cmpHandler_missing_first (s : State) {a : Nat} (r : Nat) (missing : 8 ≤ a) :
    cmpHandler s a r = .error (.registerIndexOutOfRange a) :=
  bind_eq_error.2 (.inl (inOrder_eq_error.2 (.inl (readRegister_eq_error.2 ⟨missing, rfl⟩))))

theorem cmpHandler_missing_second {s : State} {a r : Nat} {va : Word} (ha : RegisterIs s a va) (missing : 8 ≤ r) :
    cmpHandler s a r = .error (.registerIndexOutOfRange r) :=
  bind_eq_error.2 (.inl (inOrder_eq_error.2
    (.inr ⟨va, readRegister_eq_ok.2 ha, readRegister_eq_error.2 ⟨missing, rfl⟩⟩)))

/-- Settles O32: where both registers exist the flags are those of the comparison, equal Words being equal numbers. -/
theorem cmpSetsAllThreeFlags : Obligations.CmpSetsAllThreeFlags := by
  intro a r s
  refine ⟨encodedAs_of_row rfl, fun va vb hva hvb => ?_, fun missing => ?_, fun va hva missing => ?_⟩
  · obtain ⟨ha, rfl⟩ := hva
    obtain ⟨hr, rfl⟩ := hvb
    rw [exec_eq_complete, handlerOf, cmpHandler_existing s ha hr, compareFlags_eq]
    rfl
  · exact raises_of_handler (cmpHandler_missing_first s r missing)
  · exact raises_of_handler (cmpHandler_missing_second hva missing)

end Sys2Proof.Proofs

/-! Loads and stores (42_load_store.md): the ways the handlers of `lw` and `sw` end, in the order of their checks, and
the rules of the two instructions. -/

namespace Sys2Proof.Proofs

open Sys2Proof Sys2Proof.Machine

/-! ### `lw` (42_load_store.md R150) -/

section Lw

variable {s : State} {b : Operand} {base v : Word} {d : Nat} (offset : Nat)

theorem lwHandler_loads (hbase : ValueIs s b base) (hv : WordIs s (effectiveAddress base offset) v)
    (hd : d < 8) : lwHandler s d b offset = .ok ({ register := some (⟨d, hd⟩, v) }, .seq) :=
  bind_eq_ok.2 ⟨base, resolveValue_eq_ok.2 hbase, bind_eq_ok.2 ⟨v, memRead_eq_ok.2 hv,
    bind_eq_ok.2 ⟨⟨d, hd⟩, checkRegister_eq_ok.2 rfl, rfl⟩⟩⟩

theorem lwHandler_base_fault {f : Abort} (fb : ValueRaises b f) : lwHandler s d b offset = .error f :=
  bind_eq_error.2 (.inl (resolveValue_eq_error.2 fb))

theorem lwHandler_outside_ram (hbase : ValueIs s b base)
    (outside : s.ramWords ≤ (effectiveAddress base offset).toNat) :
    lwHandler s d b offset = .error (.memoryAddressOutOfRange (effectiveAddress base offset)) :=
  bind_eq_error.2 (.inr ⟨base, resolveValue_eq_ok.2 hbase,
    bind_eq_error.2 (.inl (memRead_eq_error.2 ⟨outside, rfl⟩))⟩)

/-- The destination is checked last, so its fault needs a word that was read. -/
theorem lwHandler_missing_destination (hbase : ValueIs s b base)
    (hv : WordIs s (effectiveAddress base offset) v) (missing : 8 ≤ d) :
    lwHandler s d b offset = .error (.registerIndexOutOfRange d) :=
  bind_eq_error.2 (.inr ⟨base, resolveValue_eq_ok.2 hbase, bind_eq_error.2 (.inr ⟨v, memRead_eq_ok.2 hv,
    bind_eq_error.2 (.inl (checkRegister_eq_error.2 ⟨missing, rfl⟩))⟩)⟩)

end Lw

/-- Settles O33, from the four ways the handler of `lw` ends. -/
theorem lwLoadsTheAddressedWord : Obligations.LwLoadsTheAddressedWord := by
  intro d b offset s
  refine ⟨encodedAs_of_row rfl, fun base v hbase hv hd => ?_, fun f fb => ?_, fun base hbase outside => ?_,
    fun base v hbase hv missing => ?_⟩
  · exact writesRegister_of_handler hd (lwHandler_loads offset hbase hv hd)
  · exact raises_of_handler (lwHandler_base_fault offset fb)
  · exact raises_of_handler (lwHandler_outside_ram offset hbase outside)
  · exact raises_of_handler (lwHandler_missing_destination offset hbase hv missing)

/-! ### `sw` (42_load_store.md R151) -/

section Sw

variable {s : State} {a b : Operand} {base v : Word} {f : Abort} (offset : Nat)

/-- A fault of either operand ends the store before its address is checked. -/
theorem swHandler_operand_fault (faulted : operandsSw s a b = .error f) : swHandler s a b offset = .error f :=
  bind_eq_error.2 (.inl faulted)

theorem swHandler_outside_ram (hbase : ValueIs s a base) (hv : ValueIs s b v)
    (outside : s.ramWords ≤ (effectiveAddress base offset).toNat) :
    swHandler s a b offset = .error (.memoryAddressOutOfRange (effectiveAddress base offset)) :=
  bind_eq_error.2 (.inr ⟨(base, v), values_eq_ok hbase hv,
    bind_eq_error.2 (.inl (checkAddress_eq_error.2 ⟨outside, rfl⟩))⟩)

end Sw

/-- Settles O34, from the completed store and the faults of the handler of `sw`. -/
theorem swStoresTheValue : Obligations.SwStoresTheValue := by
  intro a b offset s
  refine ⟨encodedAs_of_row rfl, fun base v hbase hv inRam => ?_, fun f fa => ?_, fun base f hbase fb => ?_,
    fun base v hbase hv outside => ?_⟩
  · exact exec_sw_of_values hbase hv inRam
  · exact raises_of_handler (swHandler_operand_fault offset (values_eq_error_of_first fa))
  · exact raises_of_handler (swHandler_operand_fault offset (values_eq_error_of_second hbase fb))
  · exact raises_of_handler (swHandler_outside_ram offset hbase hv outside)

end Sys2Proof.Proofs

/-! Control transfer (43_control.md): how the handlers of `beq` and `jalr` end, the rules of the two instructions, and
the three ways a completed instruction changes the program counter. -/

namespace Sys2Proof.Proofs

open Sys2Proof Sys2Proof.Machine

/-- An instruction whose handler completes has the handler's effects and its next program counter
(40_execution_engine.md R97). -/
theorem exec_of_handler {s : State} {i : Instr} {e : Effects} {n : Next} (h : handlerOf s i = .ok (e, n)) :
    exec i s = .next { applyEffects s e with pc := nextPc s.pc n, suppress := false } := by
  rw [exec_eq_complete, h, complete_eq]

/-! ### `beq` (43_control.md R160) -/

theorem beqHandler_eq_ok {s : State} {a b : Operand} {offset : Nat} {x : Effects × Next} :
    beqHandler s a b offset = .ok x ↔ ∃ va vb, ValueIs s a va ∧ ValueIs s b vb ∧
      x = ({}, if va = vb then .jump (s.pc + zext32 offset + 1) else .seq) := by
  simp only [beqHandler, operandsBeq, bind_eq_ok, inOrder_eq_ok, resolveValue_eq_ok, Prod.exists, and_assoc, pure,
    Except.pure, Except.ok.injEq, eq_comm (b := x)]

/-- A missing register is the only fault of `beq`: its target is not checked. -/
theorem beqHandler_eq_error {s : State} {a b : Operand} {offset : Nat} {f : Abort} :
    beqHandler s a b offset = .error f ↔ ValueRaises a f ∨ ∃ va, ValueIs s a va ∧ ValueRaises b f := by
  simp only [beqHandler, operandsBeq, bind_eq_error, inOrder_eq_error, resolveValue_eq_ok, resolveValue_eq_error, pure,
    Except.pure, reduceCtorEq, and_false, exists_const, or_false]

/-- Settles O37, from the two ways the handler of `beq` completes and its faults. -/
theorem beqBranchesForwardWhenEqual : Obligations.BeqBranchesForwardWhenEqual := by
  intro a b offset s
  refine ⟨encodedAs_of_row rfl, fun v ha hb => ?_, fun va vb ha hb unequal => ?_, fun f fa => ?_, fun va f ha fb => ?_⟩
  · have taken : handlerOf s (.beq a b offset) = .ok ({}, .jump (s.pc + zext32 offset + 1)) :=
      beqHandler_eq_ok.2 ⟨v, v, ha, hb, by rw [if_pos rfl]⟩
    exact exec_of_handler taken
  · have untaken : handlerOf s (.beq a b offset) = .ok ({}, .seq) :=
      beqHandler_eq_ok.2 ⟨va, vb, ha, hb, by rw [if_neg unequal]⟩
    exact exec_of_handler untaken
  · exact raises_of_handler (beqHandler_eq_error.2 (.inl fa))
  · exact raises_of_handler (beqHandler_eq_error.2 (.inr ⟨va, ha, fb⟩))

/-! ### `jalr` (43_control.md R161) -/

theorem jalrHandler_eq_ok {s : State} {a b : Operand} {x : Effects × Next} :
    jalrHandler s a b = .ok x ↔ ∃ link target, ValueIs s a link ∧ ValueIs s b target ∧ link.toNat < s.ramWords ∧
      x = ({ ram := some (link, s.pc + 1) }, .jump target) := by
  simp only [jalrHandler, operandsJalr, linkJalr_eq_resolveValue, bind_eq_ok, inOrder_eq_ok, resolveValue_eq_ok,
    checkAddress_eq_ok, Prod.exists, exists_const, and_assoc, pure, Except.pure, Except.ok.injEq, eq_comm (b := x)]

/-- The faults in their order: the link operand, the target operand, the link address. -/
theorem jalrHandler_eq_error {s : State} {a b : Operand} {f : Abort} :
    jalrHandler s a b = .error f ↔ (ValueRaises a f ∨ ∃ link, ValueIs s a link ∧ ValueRaises b f) ∨
      ∃ link target, (ValueIs s a link ∧ ValueIs s b target) ∧
        s.ramWords ≤ link.toNat ∧ f = .memoryAddressOutOfRange link := by
  simp only [jalrHandler, operandsJalr, linkJalr_eq_resolveValue, bind_eq_error, inOrder_eq_ok, inOrder_eq_error,
    resolveValue_eq_ok, resolveValue_eq_error, checkAddress_eq_error, Prod.exists, pure, Except.pure, reduceCtorEq,
    and_false, exists_const, or_false]

/-- Settles O38, from the completed jump and the faults of the handler of `jalr`. -/
theorem jalrStoresLinkAndJumps : Obligations.JalrStoresLinkAndJumps := by
  intro a b s
  refine ⟨encodedAs_of_row rfl, fun link target ha hb inRam => ?_, fun f fa => ?_, fun link f ha fb => ?_,
    fun link target ha hb outside => ?_⟩
  · have jumps : handlerOf s (.jalr a b) = .ok ({ ram := some (link, s.pc + 1) }, .jump target) :=
      jalrHandler_eq_ok.2 ⟨link, target, ha, hb, inRam, rfl⟩
    exact exec_of_handler jumps
  · exact raises_of_handler (jalrHandler_eq_error.2 (.inl (.inl fa)))
  · exact raises_of_handler (jalrHandler_eq_error.2 (.inl (.inr ⟨link, ha, fb⟩)))
  · exact raises_of_handler (jalrHandler_eq_error.2 (.inr ⟨link, target, ⟨ha, hb⟩, outside, rfl⟩))

/-! ### The next program counter of every instruction (43_control.md R162) -/

/-- What a handler that completes may ask of the program counter: every instruction may go on in sequence, only `beq`
may branch, and only `jalr` may jump to a value. -/
inductive PermittedNext (s : State) : Instr → Next → Prop where
  | seq (i : Instr) : PermittedNext s i .seq
  | branch (a b : Operand) (offset : Nat) : PermittedNext s (.beq a b offset) (.jump (s.pc + zext32 offset + 1))
  | jump (a : Operand) {b : Operand} {target : Word} (value : ValueIs s b target) :
    PermittedNext s (.jalr a b) (.jump target)

/-- The handler requests no jump. -/
def Sequential (h : HandlerResult) : Prop := ∀ e n, h = .ok (e, n) → n = .seq

theorem sequential_ok (e : Effects) : Sequential (.ok (e, .seq)) := by rintro _ _ ⟨⟩; rfl

theorem sequential_bind {α : Type} {x : Except Abort α} {f : α → HandlerResult} (hf : ∀ v, Sequential (f v)) :
    Sequential (x >>= f) := by
  intro e n h
  obtain ⟨v, -, hv⟩ := bind_eq_ok.1 h
  exact hf v e n hv

theorem sequential_aluHandler (p : Except Abort (Word × Word)) (op : Word → Word → Except Abort Word) (r : Nat) :
    Sequential (aluHandler p op r) :=
  sequential_bind fun _ => sequential_bind fun _ => sequential_bind fun _ => sequential_ok _

theorem sequential_incHandler (s : State) (a : Operand) : Sequential (incHandler s a) := by
  cases a with
  | untagged | tagged => exact sequential_bind fun _ => sequential_ok _

/-- Every handler but those of `beq` and `jalr` leaves the program counter to the advance phase. -/
theorem sequential_handlerOf (s : State) {i : Instr} (notBeq : ∀ a b offset, i ≠ .beq a b offset)
    (notJalr : ∀ a b, i ≠ .jalr a b) : Sequential (handlerOf s i) := by
  cases i with
  | beq a b offset => exact absurd rfl (notBeq a b offset)
  | jalr a b => exact absurd rfl (notJalr a b)
  | add | nand | idiv | imul | and | xor | shr | adc | sbb =>
    unfold handlerOf
    exact sequential_aluHandler _ _ _
  | lw => exact sequential_bind fun _ => sequential_bind fun _ => sequential_bind fun _ => sequential_ok _
  | sw => exact sequential_bind fun _ => sequential_bind fun _ => sequential_ok _
  | inc a => exact sequential_incHandler s a
  | cmp => exact sequential_bind fun _ => sequential_ok _
  | halt | noop | jma | jmbe => exact sequential_ok _

theorem handlerOf_permittedNext {s : State} {i : Instr} {e : Effects} {n : Next} (h : handlerOf s i = .ok (e, n)) :
    PermittedNext s i n := by
  cases i with
  | beq a b offset =>
    obtain ⟨va, vb, -, -, ⟨⟩⟩ := beqHandler_eq_ok.1 h
    split
    · exact .branch a b offset
    · exact .seq _
  | jalr a b =>
    obtain ⟨link, target, -, hb, -, ⟨⟩⟩ := jalrHandler_eq_ok.1 h
    exact .jump a hb
  | _ =>
    obtain rfl : n = .seq := sequential_handlerOf s (by simp) (by simp) e n h
    exact .seq _

theorem not_safe_raise (s : State) (f : Abort) : ¬ (raise s f).Safe := fun safe => safe f rfl

/-- Settles O45: a safe next state is that of a handler that completed, whose request is one of the three. -/
theorem programCounterChangesInThreeWays : Obligations.ProgramCounterChangesInThreeWays := by
  intro i s t _ h safe
  obtain ⟨f, -, rfl⟩ | ⟨e, n, completed, rfl⟩ := exec_cases h
  · exact absurd safe (not_safe_raise s f)
  · cases handlerOf_permittedNext completed with
    | seq => exact .inl rfl
    | branch a b offset => exact .inr (.inl ⟨a, b, offset, rfl, rfl⟩)
    | jump a value => exact .inr (.inr ⟨a, _, rfl, value⟩)

end Sys2Proof.Proofs

/-! System instructions (44_system.md): `halt`, and the three instructions that only advance the program counter. -/

namespace Sys2Proof.Proofs

open Sys2Proof Sys2Proof.Machine

/-- An instruction whose handler completes in sequence with no effect only advances the program counter. -/
theorem onlyAdvances_of_handler {s : State} {i : Instr} (h : handlerOf s i = .ok ({}, .seq)) : OnlyAdvances i s :=
  exec_of_handler h

/-- Settles O39: the handler of `halt` completes with the halt as its one effect, and no other handler asks for it. -/
theorem haltStopsTheMachine : Obligations.HaltStopsTheMachine := by
  intro s
  have halts : handlerOf s .halt = .ok ({ halt := true }, .seq) := rfl
  exact ⟨encodedAs_of_row rfl, exec_of_handler halts, fun _ _ notHalted ran => (exec_halts_iff notHalted ran).1⟩

/-- Settles O40: the handlers of `noop`, `jma` and `jmbe` have no effect and read nothing of the state, the flags
included. -/
theorem noopJmaAndJmbeOnlyAdvance : Obligations.NoopJmaAndJmbeOnlyAdvance := fun _ =>
  ⟨⟨encodedAs_of_row rfl, onlyAdvances_of_handler rfl⟩, ⟨encodedAs_of_row rfl, onlyAdvances_of_handler rfl⟩,
    ⟨encodedAs_of_row rfl, onlyAdvances_of_handler rfl⟩⟩

end Sys2Proof.Proofs

/-! Exceptions (60_exceptions.md): a fetch outside RAM, the one way a step of a running machine aborts, the runs that
meet no fatal error, and the causes that the handler of each instruction may raise. -/

namespace Sys2Proof.Proofs

open Sys2Proof Sys2Proof.Machine

/-! ### A fetch outside RAM (60_exceptions.md R182) -/

theorem fetch_outside_ram {s : State} (outside : s.ramWords ≤ s.pc.toNat) :
    fetch s = .error (.programCounterOutOfRange s.pc) := if_neg outside.not_gt

theorem step_of_fetch_fault {s : State} {f : Abort} (running : s.status = .running) (fault : fetch s = .error f) :
    step s = .next (raise s f) := by
  simp only [step, running, fault]

/-- Settles O14: the fetch faults, and fault entry changes the status alone. -/
theorem fetchOutsideRamAborts : Obligations.FetchOutsideRamAborts := fun _ running outside =>
  step_of_fetch_fault running (fetch_outside_ram outside)

/-! ### Fault entry is precise (60_exceptions.md R190) -/

/-- A running machine aborts in an instruction only by a fault of its handler: none of its effects is applied. -/
theorem exec_aborted {s t : State} {i : Instr} {f : Abort} (running : s.status = .running) (h : exec i s = .next t)
    (aborted : t.status = .aborted f) : handlerOf s i = .error f ∧ t = raise s f := by
  obtain ⟨g, faulted, rfl⟩ | ⟨e, n, -, rfl⟩ := exec_cases h
  · cases aborted
    exact ⟨faulted, rfl⟩
  · exact absurd aborted (applyEffects_not_aborted running f)

/-- Settles O19: a fault at fetch enters from the old state, and one at decode or dispatch from the old state whose `ir`
holds the fetched word. -/
theorem faultsArePrecise : Obligations.FaultsArePrecise := by
  intro s t f running h aborted
  obtain ⟨stopped, -⟩ | ⟨-, outside, rfl⟩ | ⟨-, inRam, ⟨x, -, rfl⟩ | ⟨i, -, ran⟩⟩ := step_cases h
  · exact absurd running stopped
  · cases aborted
    rw [if_neg outside.not_gt]
    rfl
  · cases aborted
    rw [if_pos inRam]
    rfl
  · obtain ⟨-, rfl⟩ := exec_aborted ((State.setIr_status s _).trans running) ran aborted
    rw [if_pos inRam]
    rfl

/-! ### Safe runs (60_exceptions.md R191, 70_reset_and_hazards.md R219) -/

/-- A state with a safe run of any length is safe, since a step changes nothing of an aborted one. -/
theorem safe_of_safeRun {s : State} {k : Nat} (h : SafeRun k s) : s.Safe := by
  intro f aborted
  obtain ⟨t, ran, safe⟩ := h
  have stopped : s.status ≠ .running := by simp [aborted]
  obtain rfl : s = t := Host.Outcome.next.inj ((run_of_not_running stopped k).symm.trans ran)
  exact safe f aborted

theorem run_succ_of_step {M : Host.Core} {s t : M.State} (h : M.step s = .next t) (k : Nat) :
    M.run (k + 1) s = M.run k t := by
  rw [Host.Core.run, h]

theorem safeRun_succ_iff {s t : State} {k : Nat} (h : step s = .next t) : SafeRun (k + 1) s ↔ SafeRun k t := by
  rw [SafeRun, SafeRun, run_succ_of_step (M := Sys2Proof.core) h k]

/-- The first `k` steps of a safe run are a safe run. -/
theorem safeRun_of_longer {s : State} {k j : Nat} (h : SafeRun (k + j) s) : SafeRun k s := by
  induction k generalizing s with
  | zero => exact ⟨s, rfl, safe_of_safeRun h⟩
  | succ k ih =>
    obtain ⟨t, stepped⟩ := step_total s
    rw [Nat.succ_add] at h
    exact (safeRun_succ_iff stepped).2 (ih ((safeRun_succ_iff stepped).1 h))

/-- Settles O17, as the contrapositive: a run that is safe is safe from its beginning on. -/
theorem noReturnFromAFault : Obligations.NoReturnFromAFault := fun _ _ _ => mt safeRun_of_longer

/-! ### The faults of the operations and of the remaining handlers (60_exceptions.md R185 to R188) -/

theorem quotient_eq_error {pc va vb : Word} {f : Abort} :
    quotient pc va vb = .error f ↔ vb = 0 ∧ f = .divideByZero pc := by
  unfold quotient
  split
  · rw [Except.error.injEq, eq_comm (b := f), and_iff_right ‹_›]
  · exact iff_of_false (by simp) fun h => ‹vb ≠ 0› h.1

theorem shiftRight_eq_error {va vb : Word} {f : Abort} :
    shiftRight va vb = .error f ↔ 32 ≤ vb.toNat ∧ f = .shiftAmountOutOfRange vb := by
  unfold shiftRight
  split
  · rw [Except.error.injEq, eq_comm (b := f), and_iff_right ‹_›]
  · exact iff_of_false (by simp) fun h => ‹¬ 32 ≤ vb.toNat› h.1

/-- The faults in their order: the base, the load address, the destination. -/
theorem lwHandler_eq_error {s : State} {d : Nat} {b : Operand} {offset : Nat} {f : Abort} :
    lwHandler s d b offset = .error f ↔ ValueRaises b f ∨ ∃ base, ValueIs s b base ∧
      ((s.ramWords ≤ (effectiveAddress base offset).toNat ∧
          f = .memoryAddressOutOfRange (effectiveAddress base offset)) ∨
        ∃ v, WordIs s (effectiveAddress base offset) v ∧ 8 ≤ d ∧ f = .registerIndexOutOfRange d) := by
  simp only [lwHandler, baseLw, bind_eq_error, resolveValue_eq_ok, resolveValue_eq_error, memRead_eq_ok,
    memRead_eq_error, checkRegister_eq_error, pure, Except.pure, reduceCtorEq, and_false, exists_const, or_false]

/-- The faults in their order: the base, the stored value, the store address. -/
theorem swHandler_eq_error {s : State} {a b : Operand} {offset : Nat} {f : Abort} :
    swHandler s a b offset = .error f ↔ (ValueRaises a f ∨ ∃ base, ValueIs s a base ∧ ValueRaises b f) ∨
      ∃ base v, (ValueIs s a base ∧ ValueIs s b v) ∧ s.ramWords ≤ (effectiveAddress base offset).toNat ∧
        f = .memoryAddressOutOfRange (effectiveAddress base offset) := by
  simp only [swHandler, operandsSw, bind_eq_error, inOrder_eq_ok, inOrder_eq_error, resolveValue_eq_ok,
    resolveValue_eq_error, checkAddress_eq_error, Prod.exists, pure, Except.pure, reduceCtorEq, and_false,
    exists_const, or_false]

/-- `inc` names one operand, and faults as its dereference does. -/
theorem incHandler_eq_error {s : State} {a : Operand} {f : Abort} :
    incHandler s a = .error f ↔ DerefRaises s a f := by
  cases a with
  | untagged | tagged =>
    simp only [incHandler, DerefRaises, bind_eq_error, checkRegister_eq_error, memRead_eq_error, pure, Except.pure,
      reduceCtorEq, and_false, exists_const, or_false]

/-- A missing register is the only fault of `cmp`. -/
theorem cmpHandler_eq_error {s : State} {a r : Nat} {f : Abort} :
    cmpHandler s a r = .error f ↔ (8 ≤ a ∧ f = .registerIndexOutOfRange a) ∨
      ∃ va, RegisterIs s a va ∧ 8 ≤ r ∧ f = .registerIndexOutOfRange r := by
  simp only [cmpHandler, operandsCmp, resolvePlainReg, bind_eq_error, inOrder_eq_error, readRegister_eq_ok,
    readRegister_eq_error, pure, Except.pure, reduceCtorEq, and_false, exists_const, or_false]

/-! ### The causes of each handler (60_exceptions.md R181) -/

section Causes

variable {s : State} {i : Instr} {a b : Operand} {f : Abort}

theorem mayRaise_of_valueRaises (names : namesRegister i = true) (h : ValueRaises a f) : mayRaise i s f := by
  cases a with
  | untagged n =>
    obtain ⟨missing, rfl⟩ := h
    exact ⟨names, missing⟩
  | tagged n => exact h.elim

theorem mayRaise_of_derefRaises (names : namesRegister i = true) (accesses : isTagged a = true → accessesRam i = true)
    (h : DerefRaises s a f) : mayRaise i s f := by
  cases a with
  | untagged n =>
    obtain ⟨missing, rfl⟩ := h
    exact ⟨names, missing⟩
  | tagged n =>
    obtain ⟨outside, rfl⟩ := h
    exact ⟨accesses rfl, outside⟩

theorem aluHandler_mayRaise {p : Except Abort (Word × Word)} {op : Word → Word → Except Abort Word} {r : Nat}
    (names : namesRegister i = true) (sources : p = .error f → mayRaise i s f)
    (operation : ∀ va vb, op va vb = .error f → mayRaise i s f) (h : aluHandler p op r = .error f) :
    mayRaise i s f := by
  obtain source | ⟨va, vb, -, undefined | ⟨_, -, missing, rfl⟩⟩ := aluHandler_eq_error.1 h
  · exact sources source
  · exact operation va vb undefined
  · exact ⟨names, missing⟩

/-- Two dereferenced sources access RAM where one is tagged, and the operation may add a cause of its own. -/
theorem derefAlu_mayRaise {op : Word → Word → Except Abort Word} {r : Nat} (names : namesRegister i = true)
    (accesses : accessesRam i = (isTagged a || isTagged b))
    (operation : ∀ va vb, op va vb = .error f → mayRaise i s f)
    (h : aluHandler (inOrder (resolveDeref s a) (resolveDeref s b)) op r = .error f) : mayRaise i s f := by
  refine aluHandler_mayRaise names (fun source => ?_) operation h
  obtain fa | ⟨_, -, fb⟩ := inOrder_eq_error.1 source
  · exact mayRaise_of_derefRaises names (by simp +contextual [accesses]) (resolveDeref_eq_error.1 fa)
  · exact mayRaise_of_derefRaises names (by simp +contextual [accesses]) (resolveDeref_eq_error.1 fb)

/-- The causes in the row of every instruction, from the faults of its handler. -/
theorem handlerOf_mayRaise (h : handlerOf s i = .error f) : mayRaise i s f := by
  cases i with
  | add | imul | and | xor | adc | sbb =>
    unfold handlerOf at h
    exact derefAlu_mayRaise rfl rfl (by rintro _ _ ⟨⟩) h
  | idiv a b r =>
    refine derefAlu_mayRaise rfl rfl (fun va vb undefined => ?_) h
    obtain ⟨-, rfl⟩ := quotient_eq_error.1 undefined
    exact ⟨⟨a, b, r, rfl⟩, rfl⟩
  | shr a b r =>
    refine derefAlu_mayRaise rfl rfl (fun va vb undefined => ?_) h
    obtain ⟨large, rfl⟩ := shiftRight_eq_error.1 undefined
    exact ⟨⟨a, b, r, rfl⟩, large⟩
  | nand a b r =>
    unfold handlerOf at h
    refine aluHandler_mayRaise rfl (fun source => ?_) (by rintro _ _ ⟨⟩) h
    obtain fa | ⟨_, -, fb⟩ := inOrder_eq_error.1 source
    · exact mayRaise_of_valueRaises rfl (resolveValue_eq_error.1 fa)
    · exact mayRaise_of_valueRaises rfl (resolveValue_eq_error.1 fb)
  | lw d b offset =>
    obtain fb | ⟨_, -, ⟨outside, rfl⟩ | ⟨_, -, missing, rfl⟩⟩ := lwHandler_eq_error.1 h
    · exact mayRaise_of_valueRaises rfl fb
    · exact ⟨rfl, outside⟩
    · exact ⟨rfl, missing⟩
  | sw a b offset =>
    obtain (fa | ⟨_, -, fb⟩) | ⟨_, _, -, outside, rfl⟩ := swHandler_eq_error.1 h
    · exact mayRaise_of_valueRaises rfl fa
    · exact mayRaise_of_valueRaises rfl fb
    · exact ⟨rfl, outside⟩
  | beq a b offset =>
    obtain fa | ⟨_, -, fb⟩ := beqHandler_eq_error.1 h
    · exact mayRaise_of_valueRaises rfl fa
    · exact mayRaise_of_valueRaises rfl fb
  | jalr a b =>
    obtain (fa | ⟨_, -, fb⟩) | ⟨_, _, -, outside, rfl⟩ := jalrHandler_eq_error.1 h
    · exact mayRaise_of_valueRaises rfl fa
    · exact mayRaise_of_valueRaises rfl fb
    · exact ⟨rfl, outside⟩
  | inc a => exact mayRaise_of_derefRaises rfl id (incHandler_eq_error.1 h)
  | cmp a r =>
    obtain ⟨missing, rfl⟩ | ⟨_, -, missing, rfl⟩ := cmpHandler_eq_error.1 h
    · exact ⟨rfl, missing⟩
    · exact ⟨rfl, missing⟩
  | halt | noop | jma | jmbe => cases h

end Causes

/-- Settles O20: an aborted running machine has the fault of the instruction's handler. -/
theorem handlersRaiseOnlyTheirCauses : Obligations.HandlersRaiseOnlyTheirCauses := fun _ _ _ _ running h aborted =>
  handlerOf_mayRaise (exec_aborted running h aborted).1

end Sys2Proof.Proofs

/-! Reset and boot (70_reset_and_hazards.md): the values of the reset state, and the words of a loaded image. -/

namespace Sys2Proof.Proofs

open Sys2Proof Sys2Proof.Machine

/-! ### Reset (70_reset_and_hazards.md R210) -/

/-- A memory that lists no byte is zero in every word (20_memory.md R58). -/
@[simp] theorem readWord_nil (a : Nat) : readWord [] a = 0 := rfl

theorem resetWith_register (n : Nat) (i : Fin 8) : (State.resetWith n).regs[i] = 0 := by
  rw [State.resetWith_regs]
  exact Vector.getElem_replicate i.isLt

/-- Settles O1, field by field; the host's `Reset` keeps RAM_WORDS and nothing else of the session. -/
theorem resetGivesTheSpecValues : Obligations.ResetGivesTheSpecValues := fun n =>
  ⟨resetWith_register n, State.resetWith_pc n, State.resetWith_flags n, State.resetWith_ir n,
    State.resetWith_suppress n, State.resetWith_status n, fun a => by rw [State.resetWith_mem, readWord_nil],
    fun _ ramWords => congrArg State.resetWith ramWords⟩

/-! ### The words of a loaded image (70_reset_and_hazards.md R213) -/

section Image

variable {m : Memory} {bytes : List Byte} (wf : memoryWf m = true)

include wf

/-- Within the image, byte `j` of RAM is byte `j` of the image, whatever RAM held before. -/
theorem readByte_image {j : Nat} (inImage : j < bytes.length) : readByte (writeBytes m 0 bytes) j = bytes.getD j 0 := by
  rw [readByte_writeBytes wf, if_pos (Nat.zero_le j), Nat.sub_zero, List.getD_eq_getElem?_getD,
    List.getElem?_eq_getElem inImage, Option.getD_some, Option.getD_some]

/-- A word whose last byte is in the image has the image's four bytes, least significant first. -/
theorem readWord_image {k : Nat} (inImage : 4 * k + 3 < bytes.length) :
    readWord (writeBytes m 0 bytes) k =
      wordOfBytes (bytes.getD (4 * k) 0) (bytes.getD (4 * k + 1) 0) (bytes.getD (4 * k + 2) 0)
        (bytes.getD (4 * k + 3) 0) := by
  simp (disch := omega) only [readWord, readByte_image wf]

end Image

/-- Settles O46: an image of RAM's size covers all four bytes of every RAM word; any other size is refused. -/
theorem loadImagePlacesEveryWord : Obligations.LoadImagePlacesEveryWord := by
  intro p fresh wf
  refine ⟨hostLoadImage_missing fresh, fun bytes => ?_⟩
  have loaded := hostLoadImage_before fresh bytes
  rw [show p.machine.ramWords * Config.wordBytes = 4 * p.machine.ramWords from Nat.mul_comm _ _] at loaded
  split
  next size =>
    rw [if_pos size] at loaded
    exact ⟨_, loaded, fun k inRam => readWord_image wf (by omega)⟩
  next otherSize => rw [loaded, if_neg otherSize]

end Sys2Proof.Proofs
